-- ==== Sys2Proof/Word.lean ====
section
/-! DEFINITION. The word types of PFV: the widths rules R7, R13 and R54 give. Everything is unsigned (R8). -/

namespace Sys2Proof

/-- BYTE_W, 8 bits: a buffer byte, the type field, the checksum, a PMEM cell (R7). -/
abbrev Byte := BitVec 8

/-- 16 bits: the magic and payload-length fields (R18, R20), a PMEM address (R37). -/
abbrev Half := BitVec 16

/-- CNT_W and TOT_W, 17 bits: the byte counter and the exact sums over PLEN (R7, R109). -/
abbrev Count := BitVec 17

/-- STATUS_W, 3 bits: the result code (R16). -/
abbrev StatusCode := BitVec 3

/-- CW_W, 10 bits: the command word made of op (bits 9:8) and din (bits 7:0) (R54). -/
abbrev CommandWord := BitVec 10

end Sys2Proof
end

