-- ==== Sys2Proof/Config.lean ====
section
/-! DEFINITION. The parameters of rule R7 at the values the spec is written for, and the one free value of the
machine: the power-up content of PMEM (93_implementation_defined.md U1). -/

namespace Sys2Proof.Config

/-- MAGIC_CONST, the required value of the magic field (R7, R63). -/
def magicConst : Half := 0xCAFE

/-- HDR_LEN, the bytes of the fixed header (R7). -/
def hdrLen : Nat := 5

/-- CSUM_LEN, the bytes of checksum after the payload (R7). -/
def csumLen : Nat := 1

/-- TYPE_DATA (R7, R61). -/
def typeData : Byte := 0x01

/-- TYPE_CMD (R7, R61). -/
def typeCmd : Byte := 0x02

/-- TYPE_ACK (R7, R61). -/
def typeAck : Byte := 0x03

/-- CNT_MAX, 2^17 - 1, where CNT saturates (R7, R17, D9). -/
def cntMax : Nat := 131071

/-- PMEM_DEPTH, the cells of payload memory (R7, R37, D15). -/
def pmemDepth : Nat := 65536

/-- FREE VALUE: what a PMEM cell holds that no BYTE has written since power-up. Rule R149 and U1 leave it
unspecified and ask for a free parameter, so it has no body: nothing can be proved of a value of it
(assumption log, entry 5). -/
opaque pmemPowerUp : Half → Byte

end Sys2Proof.Config
end

