-- ==== Sys2Proof/Syntax.lean ====
section
/-! DEFINITION. The instructions of PFV, one constructor per row of spec/opcode_table.json: the four port operations
(format CW) and the three frame types (format FRAME), rule R53. -/

namespace Sys2Proof

/-- The operand of a frame type (R57): the bytes of the buffer after the type byte, in the three shapes a buffer that
begins with a recognised type can have. A buffer may be longer than its frame (R58, R91) or end too early (R80, R84):
DEDUCED from those rules (assumption log, entry 8). -/
inductive FrameTail where
  /-- The buffer ends before the length field is whole (check 1 will fail, R80): at most one more byte. -/
  | noLength (rest : List Byte)
  /-- The length field is whole and the buffer ends at or before the checksum position (check 5 will fail, R84). -/
  | cutShort (plen : Half) (payload : List Byte)
  /-- Length field, all of the payload, the checksum byte, and trailing bytes (R57, R91). -/
  | complete (plen : Half) (payload : List Byte) (csum : Byte) (trailing : List Byte)
deriving DecidableEq, Repr

/-- An instruction of PFV (R53). `din` stands in every port operation because every command word has it; NOP, END and
CLR ignore it (R56). -/
inductive Instr where
  /-- NOP, op 0 (R102). -/
  | nop (din : Byte)
  /-- BYTE, op 1: present one byte of the buffer (R103). -/
  | byte (din : Byte)
  /-- END, op 2: the buffer is complete (R106). -/
  | endOp (din : Byte)
  /-- CLR, op 3: discard (R107). -/
  | clr (din : Byte)
  /-- DATA, a buffer that begins CA FE 01 (R95). -/
  | data (tail : FrameTail)
  /-- CMD, a buffer that begins CA FE 02 (R96). -/
  | cmd (tail : FrameTail)
  /-- ACK, a buffer that begins CA FE 03 (R97). -/
  | ack (tail : FrameTail)
deriving DecidableEq, Repr

/-- The encoded form of an instruction: a 10-bit command word (format CW, R54) or the bytes of one whole, delimited
buffer (format FRAME, R57). -/
inductive Code where
  | word (cw : CommandWord)
  | buffer (data : List Byte)
deriving DecidableEq, Repr

/-- Why a buffer decodes to none of the three frame types (R61, R62). The buffer is still a defined input of the
machine: only no row of the table names it. -/
inductive CodeRejection where
  /-- The buffer has no type byte: fewer than three bytes. -/
  | noTypeByte (available : Nat)
  /-- The first two bytes are not CA FE (R63). -/
  | notMagic (got : Half)
  /-- The third byte is none of 01, 02, 03 (R64). -/
  | unknownType (got : Byte)
deriving DecidableEq, Repr

end Sys2Proof
end

