-- ==== Sys2Proof/WellFormed.lean ====
section
/-! DEFINITION. Which instruction terms are well formed: the shape of a frame's operand must be the one its bytes
have (R57, R58). Every command word is legal (R55, R56), so the port operations have no check. -/

namespace Sys2Proof

/-- The lengths of a frame operand agree with its shape (R57, R80, R84). -/
def FrameTail.wellFormed : FrameTail → Bool
  | .noLength rest => decide (rest.length < 2)
  | .cutShort plen payload => decide (payload.length ≤ plen.toNat)
  | .complete plen payload _ _ => decide (payload.length = plen.toNat)

/-- An instruction is well formed when its operand is. -/
def Instr.wellFormed : Instr → Bool
  | .nop _ => true
  | .byte _ => true
  | .endOp _ => true
  | .clr _ => true
  | .data tail => tail.wellFormed
  | .cmd tail => tail.wellFormed
  | .ack tail => tail.wellFormed

end Sys2Proof
end

