-- ==== Sys2Proof/Decode.lean ====
section
/-! DEFINITION. The decoder of both formats (R54 to R62), and after it the encoder, written from the same tables. The
bit-field helpers the machine uses stand here too. -/

namespace Sys2Proof

/-- The big-endian 16-bit number of two bytes (R39, R59, R60): `hi` in bits 15:8. -/
def bigEndian (hi lo : Byte) : Half := hi ++ lo

/-- Bits 15:8. -/
def highByte (h : Half) : Byte := h.extractLsb' 8 8

/-- Bits 7:0. -/
def lowByte (h : Half) : Byte := h.extractLsb' 0 8

/-- The field `op` of a command word, bits 9:8 (R54). -/
def opField (cw : CommandWord) : BitVec 2 := cw.extractLsb' 8 2

/-- The field `din` of a command word, bits 7:0 (R54). -/
def dinField (cw : CommandWord) : Byte := cw.extractLsb' 0 8

/-- The decoder of command words: it looks at bits 9:8 and nothing else to choose the operation (R55). All four
values of `op` are defined, so nothing is rejected. -/
def decodeWord (cw : CommandWord) : Instr :=
  if opField cw = 0 then .nop (dinField cw)
  else if opField cw = 1 then .byte (dinField cw)
  else if opField cw = 2 then .endOp (dinField cw)
  else .clr (dinField cw)

/-- The shape of the bytes after the type byte (R57): the length field if it is there, and then whether the buffer
reaches the checksum position `plen` bytes further on. -/
def parseTail : List Byte → FrameTail
  | hi :: lo :: body =>
    match body.drop (bigEndian hi lo).toNat with
    | csum :: trailing => .complete (bigEndian hi lo) (body.take (bigEndian hi lo).toNat) csum trailing
    | [] => .cutShort (bigEndian hi lo) body
  | rest => .noLength rest

/-- The decoder of buffers: the frame type is chosen by the first three bytes (R61, R62); a buffer that matches no
row is rejected by name. -/
def decodeBuffer : List Byte → Except CodeRejection Instr
  | m0 :: m1 :: t :: rest =>
    if bigEndian m0 m1 ≠ Config.magicConst then .error (.notMagic (bigEndian m0 m1))
    else if t = Config.typeData then .ok (.data (parseTail rest))
    else if t = Config.typeCmd then .ok (.cmd (parseTail rest))
    else if t = Config.typeAck then .ok (.ack (parseTail rest))
    else .error (.unknownType t)
  | short => .error (.noTypeByte short.length)

/-- The decoder of both formats. -/
def decode : Code → Except CodeRejection Instr
  | .word cw => .ok (decodeWord cw)
  | .buffer data => decodeBuffer data

/-! ## The encoder -/

/-- The command word made of `op` and `din` (R54): `op * 256 + din`. -/
def commandWord (op : BitVec 2) (din : Byte) : CommandWord := op ++ din

/-- The bytes of a frame operand in buffer order (R57). -/
def tailBytes : FrameTail → List Byte
  | .noLength rest => rest
  | .cutShort plen payload => highByte plen :: lowByte plen :: payload
  | .complete plen payload csum trailing => highByte plen :: lowByte plen :: (payload ++ csum :: trailing)

/-- The bytes of a whole buffer of type `t` (R57): magic, type, operand. -/
def frameBytes (t : Byte) (tail : FrameTail) : List Byte :=
  highByte Config.magicConst :: lowByte Config.magicConst :: t :: tailBytes tail

/-- The encoding of an instruction (R55, R57, R61). -/
def encode : Instr → Code
  | .nop din => .word (commandWord 0 din)
  | .byte din => .word (commandWord 1 din)
  | .endOp din => .word (commandWord 2 din)
  | .clr din => .word (commandWord 3 din)
  | .data tail => .buffer (frameBytes Config.typeData tail)
  | .cmd tail => .buffer (frameBytes Config.typeCmd tail)
  | .ack tail => .buffer (frameBytes Config.typeAck tail)

/-- The command words pseudo-operation FRAME expands to (R70): BYTE for every byte in order, then END. -/
def frameWords (data : List Byte) : List CommandWord :=
  data.map (commandWord 1) ++ [commandWord 2 0]

/-! ## The numbering of spec/opcode_table.json -/

/-- The buffer of a FRAME row: the 24-bit big-endian number w gives the first three bytes (R62), and every byte after
them is zero, so the length field is 0 and the frame ends with one checksum byte (R58). -/
def tableBuffer (w : Nat) : List Byte :=
  [BitVec.ofNat 8 (w / 65536), BitVec.ofNat 8 (w / 256), BitVec.ofNat 8 w, 0, 0, 0]

/-- The encoded form of a table word: a row of format FRAME has 24 bits; a row of format CW has 10, which are 16 in
whole bytes, and a number with a bit above bit 9 is no command word (assumption log, entry 10). -/
def tableCode (nbits w : Nat) : Option Code :=
  if nbits = 24 ∧ w < 16777216 then some (.buffer (tableBuffer w))
  else if (nbits = 10 ∨ nbits = 16) ∧ w < 1024 then some (.word (BitVec.ofNat 10 w))
  else none

/-- The instruction the decoder reads from the bits of a table row. -/
def decodeTableWord (nbits w : Nat) : Option Instr :=
  match tableCode nbits w with
  | some c =>
    match decode c with
    | .ok i => some i
    | .error _ => none
  | none => none

end Sys2Proof
end

