-- ==== Sys2Proof/Machine/State.lean ====
section
/-! DEFINITION. The state of PFV as plain data (R13), the host's inputs, the reset state (R148), and the reasons a
step can stop (there are none: R116, R135). -/

namespace Sys2Proof.Machine

/-- What the host presents at the input ports for one clock edge (R29, R101, R144): `rst`, and the command word made
of `op` and `din` (R54). -/
structure HostInput where
  edge ::
  rst : Bool
  cw : CommandWord
deriving DecidableEq, Repr

/-- The state of the machine: the nine registers and the memory of rule R13, and the host's inputs to come. -/
structure State where
  /-- DONE (R15). -/
  done : Bool
  /-- STATUS (R16). -/
  status : StatusCode
  /-- CNT (R17). -/
  cnt : Count
  /-- MAGIC (R18). -/
  magic : Half
  /-- TYPE (R19). -/
  ptype : Byte
  /-- PLEN (R20). -/
  plen : Half
  /-- XACC (R21). -/
  xacc : Byte
  /-- CSB (R22). -/
  csb : Byte
  /-- CMDC (R23). -/
  cmdc : Byte
  /-- PMEM (R24): the cells written since power-up, addresses strictly rising; a cell not listed has not been
  written (assumption log, entry 5). -/
  pmem : List Host.Cell
  /-- The MODEL'S OWN field: what the host presents at the edges to come, next first, one item an edge. It is the free
  input of each step (R12, R144) and no register of the block (R33) (assumption log, entry 1). -/
  pending : List HostInput
deriving DecidableEq, Repr

/-- Faults: none. `step` is total, no operation traps, and every failed check is a value END records (R116, R129,
R135), so nothing raises a fault and the type is empty (assumption log, entry 12). -/
inductive Fault where
deriving DecidableEq, Repr

/-- Refusals. Every command word and every buffer is defined (R55, R116), so no meaning refuses. -/
inductive Refusal where
  /-- Raised only by a refused arm of Dispatch.lean, for an instruction with no meaning yet; there is none. Safe: the
  machine stops where the hardware goes on. -/
  | notModelled (mnemonic : String)
deriving DecidableEq, Repr

/-- The machine after a reset edge (R25, R148): every register 0; PMEM not reset (R149), with no cell written since
power-up; the host has presented nothing yet (assumption log, entries 1 and 6). -/
def State.reset : State where
  done := false
  status := 0
  cnt := 0
  magic := 0
  ptype := 0
  plen := 0
  xacc := 0
  csb := 0
  cmdc := 0
  pmem := []
  pending := []

end Sys2Proof.Machine
end

