-- ==== Sys2Proof/Machine/Operands.lean ====
section
/-! DEFINITION. The arithmetic over CNT and PLEN that places the operand of BYTE in its buffer (R92, R104, R109). -/

namespace Sys2Proof.Machine

/-- `sat17(n)` is min(n, 131071) as a 17-bit number (R10, R109). -/
def sat17 (n : Nat) : Count := BitVec.ofNat 17 (min n Config.cntMax)

/-- `5 + PLEN` in 17 bits, exact, 5 to 65540: the offset of the checksum byte (R104, R109). -/
def checksumOffset (s : State) : Count := s.plen.setWidth 17 + BitVec.ofNat 17 Config.hdrLen

/-- `expected_total = 6 + PLEN` in 17 bits, exact, 6 to 65541 (R92, R105): the port `exp_total` (R30). -/
def expTotal (s : State) : Count :=
  s.plen.setWidth 17 + BitVec.ofNat 17 (Config.hdrLen + Config.csumLen)

/-- The PMEM cell the payload byte at offset CNT goes to: CNT - 5 (R44). -/
def payloadCell (s : State) : Nat := s.cnt.toNat - Config.hdrLen

end Sys2Proof.Machine
end

