-- ==== Sys2Proof/Machine/Flags.lean ====
section
/-! DEFINITION. The flags: the error kinds and their STATUS codes (R119), the checks in their fixed order (R105, R128),
and the two flags that are functions of the state (R28). -/

namespace Sys2Proof.Machine

/-- The seven kinds of decode error (R75, R119), in the order of their codes. -/
inductive ErrorKind where
  /-- Check 1 (R120). -/
  | insufficientHeader
  /-- Check 2 (R121). -/
  | invalidMagic
  /-- Check 3 (R122). -/
  | unknownType
  /-- Check 5 (R123). -/
  | insufficientBody
  /-- Check 7 (R124). -/
  | checksumMismatch
  /-- Check 8 (R125). -/
  | emptyCommandPayload
  /-- Reserved, never produced (R126). -/
  | invalidInput
deriving DecidableEq, Repr

/-- The STATUS code of a verdict (R119): 0 is OK. -/
def statusCode : Option ErrorKind → StatusCode
  | none => 0
  | some .insufficientHeader => 1
  | some .invalidMagic => 2
  | some .unknownType => 3
  | some .insufficientBody => 4
  | some .checksumMismatch => 5
  | some .emptyCommandPayload => 6
  | some .invalidInput => 7

/-- TYPE is one of the three recognised types (R61, R82). -/
def knownType (t : Byte) : Bool :=
  t == Config.typeData || t == Config.typeCmd || t == Config.typeAck

/-- The first failing check in the document's order, if any (R105, R128). -/
def firstFailure (s : State) : Option ErrorKind :=
  if s.cnt < BitVec.ofNat 17 Config.hdrLen then some .insufficientHeader
  else if s.magic ≠ Config.magicConst then some .invalidMagic
  else if knownType s.ptype = false then some .unknownType
  else if s.cnt < expTotal s then some .insufficientBody
  else if s.xacc ≠ s.csb then some .checksumMismatch
  else if s.ptype = Config.typeCmd ∧ s.plen = 0 then some .emptyCommandPayload
  else none

/-- `busy`: a frame has at least one byte and no verdict yet (R28). -/
def busy (s : State) : Bool := !s.done && s.cnt != 0

/-- `cmd_valid`: the verdict on show is a Packet of type CMD (R28). -/
def cmdValid (s : State) : Bool := s.done && s.status == 0 && s.ptype == Config.typeCmd

end Sys2Proof.Machine
end

