-- ==== Sys2Proof/Machine/Ops.lean ====
section
/-! DEFINITION. The named operations over PMEM and the registers: memory read and write (R10, R44, R45), `init` (R25),
`open` (R26), `absorb` (R104), recording a verdict (R129) and `finalize` (R105). -/

namespace Sys2Proof.Machine

/-! ## Payload memory -/

/-- The byte a listed cell holds; none for a cell no BYTE has written since power-up. -/
def lookupCell : List Host.Cell → Nat → Option Byte
  | [], _ => none
  | (k, v) :: rest, a => if k = a then some v else lookupCell rest a

/-- `MemWrite(a, 1, b)` (R10): the cell takes the byte, every other cell keeps its own; addresses stay rising. -/
def memWrite : List Host.Cell → Nat → Byte → List Host.Cell
  | [], a, b => [(a, b)]
  | (k, v) :: rest, a, b =>
    if k < a then (k, v) :: memWrite rest a b
    else if k = a then (a, b) :: rest
    else (a, b) :: (k, v) :: rest

/-- `MemRead(a, 1)`, the read port `pm_data` at `pm_addr` = a (R10, R45): what was last written, else the power-up
content (R149). -/
def pmData (s : State) (a : Half) : Byte :=
  (lookupCell s.pmem a.toNat).getD (Config.pmemPowerUp a)

/-- Every address of the list is at least `low`, and they rise strictly. -/
def risingFrom : Nat → List Host.Cell → Bool
  | _, [] => true
  | low, (k, _) :: rest => decide (low ≤ k) && risingFrom (k + 1) rest

/-- The canonical form of PMEM: addresses strictly rising, each the address of a cell (R37). -/
def pmemWf (m : List Host.Cell) : Bool :=
  risingFrom 0 m && m.all (fun c => decide (c.1 < Config.pmemDepth))

/-! ## Frame start -/

/-- `init(s)` (R25): every register at its reset value, PMEM unchanged. CLR and a reset edge are this. -/
def initRegs (s : State) : State :=
  { State.reset with pmem := s.pmem, pending := s.pending }

/-- `open(s)` (R26): a verdict on show is dropped, and with it the working values of its frame. It is how the block
goes on after a verdict; there is no return operation (R133). -/
def openFrame (s : State) : State := if s.done then initRegs s else s

/-! ## Capture of one byte -/

/-- `XACC <- XACC ^ b` (R21). -/
def foldXacc (b : Byte) (s : State) : State := { s with xacc := s.xacc ^^^ b }

/-- A payload byte: stored in its PMEM cell (R44); the first of them is kept in CMDC too (R23). -/
def storePayload (b : Byte) (s : State) : State :=
  { s with
    pmem := memWrite s.pmem (payloadCell s) b
    cmdc := if s.cnt.toNat = 5 then b else s.cmdc }

/-- The arms of `absorb` but for CNT and DONE (R104): which register the byte at offset CNT loads. -/
def captureByte (b : Byte) (s : State) : State :=
  if s.cnt.toNat = 0 then foldXacc b { s with magic := bigEndian b (lowByte s.magic) }
  else if s.cnt.toNat = 1 then foldXacc b { s with magic := bigEndian (highByte s.magic) b }
  else if s.cnt.toNat = 2 then foldXacc b { s with ptype := b }
  else if s.cnt.toNat = 3 then foldXacc b { s with plen := bigEndian b (lowByte s.plen) }
  else if s.cnt.toNat = 4 then foldXacc b { s with plen := bigEndian (highByte s.plen) b }
  else if s.cnt < checksumOffset s then foldXacc b (storePayload b s)
  else if s.cnt = checksumOffset s then { s with csb := b }
  else s

/-- `absorb(s, b)` (R104): one arm, then `CNT <- sat17(CNT + 1)` and `DONE <- 0`. -/
def absorb (b : Byte) (s : State) : State :=
  { captureByte b s with cnt := sat17 (s.cnt.toNat + 1), done := false }

/-! ## The verdict -/

/-- Recording a verdict (R129, "trap entry" of a block without traps): DONE <- 1, STATUS <- code, and that is all. It
is the one operation through which an error is reported. -/
def recordVerdict (code : StatusCode) (s : State) : State := { s with done := true, status := code }

/-- `finalize(s)` (R105): the first failing check chooses the code. -/
def finalize (s : State) : State := recordVerdict (statusCode (firstFailure s)) s

/-! ## The clock edges a frame is made of -/

/-- The edge of a BYTE (R101, R103). -/
def byteEdge (b : Byte) (s : State) : State := absorb b (openFrame s)

/-- The edge of an END (R101, R106). -/
def endEdge (s : State) : State := finalize (openFrame s)

/-- The edges by which the host presents a buffer (R70): BYTE for every byte, then END, all with `rst` = 0. -/
def frameEdges (data : List Byte) : List HostInput := (frameWords data).map (HostInput.edge false)

/-- The first edge of a frame (R11, R53, R70): the first operation of its run takes effect, and the host presents the
others at the edges that follow, before anything else (assumption log, entry 3). -/
def beginFrame : List Byte → State → State
  | [], s => endEdge s
  | b :: rest, s => byteEdge b { s with pending := frameEdges rest ++ s.pending }

/-! ## The edges of a frame taken together, for statements: no step is more than one edge -/

/-- The edges of BYTE for every byte of a list, in order. -/
def presentBytes : List Byte → State → State
  | [], s => s
  | b :: rest, s => presentBytes rest (byteEdge b s)

/-- What the edges of a whole buffer come to (R70, R111): BYTE for every byte, then END. -/
def presentFrame (data : List Byte) (s : State) : State := endEdge (presentBytes data s)

end Sys2Proof.Machine
end

