-- ==== Sys2Proof/Machine/Frames.lean ====
section
/-! DEFINITION. The meanings of the three frame types (R95, R96, R97). A frame is delivered as a run of port operations
(R53), one BYTE for each byte of the buffer and then END, and one edge is one step (R11): the meaning takes the first
edge and has the host present the others at the edges that follow. The verdict of the run's END is what the frame means,
and the statements give it. -/

namespace Sys2Proof.Machine

/-- DATA (R95). -/
def execData (tail : FrameTail) (s : State) : Host.Outcome State Fault Refusal :=
  .next (beginFrame (frameBytes Config.typeData tail) s)

/-- CMD (R96). -/
def execCmd (tail : FrameTail) (s : State) : Host.Outcome State Fault Refusal :=
  .next (beginFrame (frameBytes Config.typeCmd tail) s)

/-- ACK (R97). -/
def execAck (tail : FrameTail) (s : State) : Host.Outcome State Fault Refusal :=
  .next (beginFrame (frameBytes Config.typeAck tail) s)

end Sys2Proof.Machine
end

