-- ==== Sys2Proof/Machine/PortOps.lean ====
section
/-! DEFINITION. The meanings of the four port operations (R102, R103, R106, R107). -/

namespace Sys2Proof.Machine

/-- NOP (R102): no state changes; `din` is ignored. -/
def execNop (_din : Byte) (s : State) : Host.Outcome State Fault Refusal := .next s

/-- BYTE (R103): `absorb(open(s), din)`. -/
def execByte (din : Byte) (s : State) : Host.Outcome State Fault Refusal := .next (byteEdge din s)

/-- END (R106): `finalize(open(s))`; `din` is ignored. The only operation that reports an error, as a value. -/
def execEndOp (_din : Byte) (s : State) : Host.Outcome State Fault Refusal := .next (endEdge s)

/-- CLR (R107): `init(s)`; `din` is ignored. -/
def execClr (_din : Byte) (s : State) : Host.Outcome State Fault Refusal := .next (initRegs s)

end Sys2Proof.Machine
end

