-- ==== Sys2Proof/Machine/Dispatch.lean ====
section
/-! DEFINITION. One arm per instruction: each calls the meaning of that instruction. -/

namespace Sys2Proof.Machine

def exec (i : Instr) (s : State) : Host.Outcome State Fault Refusal :=
  match i with
  -- port operations (41_port_operations.md)
  | .nop din => Sys2Proof.Machine.execNop din s
  | .byte din => Sys2Proof.Machine.execByte din s
  | .endOp din => Sys2Proof.Machine.execEndOp din s
  | .clr din => Sys2Proof.Machine.execClr din s
  -- frame types (40_frame_decode.md section 5)
  | .data tail => Sys2Proof.Machine.execData tail s
  | .cmd tail => Sys2Proof.Machine.execCmd tail s
  | .ack tail => Sys2Proof.Machine.execAck tail s

end Sys2Proof.Machine
end

