-- ==== Sys2Proof/Machine/Fetch.lean ====
section
/-! DEFINITION. What the block samples at its input ports (R29, R101). PFV fetches no instruction from a memory (R52):
the operation comes in on the ports, so fetching is taking the next edge the host presents. -/

namespace Sys2Proof.Machine

/-- What an edge asks of the block. -/
inductive Sampled where
  /-- `rst` = 1: the command word is ignored (R147). -/
  | resetEdge
  /-- A port operation, one of the first four constructors of `Instr` (R55). -/
  | instr (i : Instr)
deriving DecidableEq, Repr

/-- The reading of one edge: `rst` has priority over `op` (R101). -/
def sample (x : HostInput) : Sampled := if x.rst then .resetEdge else .instr (decodeWord x.cw)

/-- The next edge, and the state in which the block meets it. -/
def takeInput (s : State) : Option (HostInput × State) :=
  match s.pending with
  | [] => none
  | x :: rest => some (x, { s with pending := rest })

/-- The edges by which the host presents an encoded instruction with `rst` = 0: one for a command word, and for a buffer
those of FRAME (R70). -/
def inputsOf : Code → List HostInput
  | .word cw => [.edge false cw]
  | .buffer data => frameEdges data

/-- The host presents these edges next. -/
def present (xs : List HostInput) (s : State) : State := { s with pending := xs ++ s.pending }

/-- The edges that carry a table word: for a FRAME row those of its buffer, else one with the command word in the low
ten bits. -/
def tableInputs (nbits w : Nat) : List HostInput :=
  if nbits = 24 then frameEdges (tableBuffer w) else [.edge false (BitVec.ofNat 10 w)]

end Sys2Proof.Machine
end

