-- ==== Sys2Proof/Machine/Step.lean ====
section
/-! DEFINITION. One step of the machine: one clock edge (R11, R101). -/

namespace Sys2Proof.Machine

/-- One step, one edge. With `rst` = 1 it is `init` (R147); else `exec` of the port operation on `op` and `din`. With
nothing presented there is no edge and nothing changes (R101; assumption log, entry 2). -/
def step (s : State) : Host.Outcome State Fault Refusal :=
  match takeInput s with
  | none => .next s
  | some (x, t) =>
    match sample x with
    | .resetEdge => .next (initRegs t)
    | .instr i => exec i t

/-- `s` with the instruction of a table word presented next: its edges at the head of what the host presents. -/
def State.withFetchWord (s : State) (nbits w : Nat) : State := present (tableInputs nbits w) s

end Sys2Proof.Machine
end

