-- ==== Sys2Proof/Machine/Reference.lean ====
section
/-! DEFINITION. The document's function `decode(data) -> Packet | DecodeError` (R73, R89), on lists of bytes. It is
normative: the machine is right exactly when its verdict for a frame equals this (R113). -/

namespace Sys2Proof.Machine

/-- Packet, the output on success (R74). -/
structure Packet where
  magic : Half
  packetType : Byte
  payloadLength : Half
  payload : List Byte
  checksum : Byte
  /-- Present only for CMD (R87). -/
  commandCode : Option Byte
deriving DecidableEq, Repr

/-- DecodeError, the output on failure (R75). The counts are naturals here; the bounds R75 gives for them are a
statement (assumption log, entry 13). -/
inductive DecodeError where
  | insufficientHeader (available : Nat)
  | invalidMagic (got : Half)
  | unknownType (got : Byte)
  | insufficientBody (expected available : Nat)
  /-- `expected` is the computed fold and `actual` the byte found (R86, D13). -/
  | checksumMismatch (expected actual : Byte)
  | emptyCommandPayload
  /-- Never returned for a byte sequence (R126). -/
  | invalidInput
deriving DecidableEq, Repr

/-- What `decode` returns: exactly one of the two (R73). -/
inductive DecodeResult where
  | packet (p : Packet)
  | error (e : DecodeError)
deriving DecidableEq, Repr

/-- `xor_fold` from an accumulator (R79): every byte is scanned once, in order. -/
def xorFoldFrom : Byte → List Byte → Byte
  | acc, [] => acc
  | acc, b :: rest => xorFoldFrom (acc ^^^ b) rest

/-- `xor_fold(bs)`, from an accumulator of zero (R79). -/
def xorFold (bs : List Byte) : Byte := xorFoldFrom 0 bs

/-- The reference function `decode` (R89). Every index carries the proof that it is in range, which is the proof
obligation of rule R98. -/
def refDecode (data : List Byte) : DecodeResult :=
  if hHeader : data.length < 5 then .error (.insufficientHeader data.length)
  else
    let m := bigEndian (data[0]'(by omega)) (data[1]'(by omega))
    let t := data[2]'(by omega)
    let plen := bigEndian (data[3]'(by omega)) (data[4]'(by omega))
    if m ≠ 0xCAFE then .error (.invalidMagic m)
    else if ¬ (t = 0x01 ∨ t = 0x02 ∨ t = 0x03) then .error (.unknownType t)
    else if hBody : data.length < 5 + plen.toNat + 1 then
      .error (.insufficientBody (5 + plen.toNat + 1) data.length)
    else
      let payload := (data.drop 5).take plen.toNat
      let x := xorFold (data.take (5 + plen.toNat))
      let c := data[5 + plen.toNat]'(by omega)
      if x ≠ c then .error (.checksumMismatch x c)
      else if t = 0x02 then
        if plen.toNat < 1 then .error .emptyCommandPayload
        else .packet ⟨m, t, plen, payload, c, some (data[5]'(by omega))⟩
      else .packet ⟨m, t, plen, payload, c, none⟩

/-- The buffer pseudo-operation PACKET builds (R71): header, payload, right checksum. -/
def packetBuffer (t : Byte) (payload : List Byte) : List Byte :=
  let body := [0xCA, 0xFE, t, BitVec.ofNat 8 (payload.length / 256), BitVec.ofNat 8 payload.length] ++ payload
  body ++ [xorFold body]

end Sys2Proof.Machine
end

