-- ==== Sys2Proof/Machine/Result.lean ====
section
/-! DEFINITION. What the host reads: the output ports (R30) and the result of the last END as a view of the state
(R34, R108, R127). -/

namespace Sys2Proof.Machine

/-- The payload on show: cells 0 to PLEN - 1 (R34). -/
def payloadView (s : State) : List Byte :=
  (List.range s.plen.toNat).map (fun k => pmData s (BitVec.ofNat 16 k))

/-- `result(s)` (R108), defined when DONE = 1. STATUS = 7 cannot occur (R126) and has no meaning. -/
def result (s : State) : Option DecodeResult :=
  if s.done = false then none
  else if s.status = 0 then
    some (.packet ⟨s.magic, s.ptype, s.plen, payloadView s, s.csb, if s.ptype = 2 then some s.cmdc else none⟩)
  else if s.status = 1 then some (.error (.insufficientHeader s.cnt.toNat))
  else if s.status = 2 then some (.error (.invalidMagic s.magic))
  else if s.status = 3 then some (.error (.unknownType s.ptype))
  else if s.status = 4 then some (.error (.insufficientBody (expTotal s).toNat s.cnt.toNat))
  else if s.status = 5 then some (.error (.checksumMismatch s.xacc s.csb))
  else if s.status = 6 then some (.error .emptyCommandPayload)
  else none

/-- The output ports (R30), by the spec's names. -/
structure OutPorts where
  done : Bool
  status : StatusCode
  busy : Bool
  count : Count
  magic : Half
  ptype : Byte
  plen : Half
  expTotal : Count
  xacc : Byte
  csum : Byte
  cmdCode : Byte
  cmdValid : Bool
  pmData : Byte
deriving DecidableEq, Repr

/-- The ports as functions of the state and, for `pm_data`, of the input `pm_addr` (R30, R45). -/
def outPorts (s : State) (pmAddr : Half) : OutPorts where
  done := s.done
  status := s.status
  busy := busy s
  count := s.cnt
  magic := s.magic
  ptype := s.ptype
  plen := s.plen
  expTotal := expTotal s
  xacc := s.xacc
  csum := s.csb
  cmdCode := s.cmdc
  cmdValid := cmdValid s
  pmData := pmData s pmAddr

end Sys2Proof.Machine
end

