-- ==== Sys2Proof/Safety.lean ====
section
/-! DEFINITION. The terms claims about PFV are made in: where a frame begins (R113), what a run of command words reaches,
and the invariant of the machine. -/

namespace Sys2Proof.Safety

open Sys2Proof.Machine

/-- A frame really begins at the next operation: a verdict is on show, or every register is at its reset value (R113,
C9). -/
def FrameStart (s : State) : Prop := s.done = true ∨ initRegs s = s

/-- Presenting these command words, one an edge with `rst` = 0, takes `s` to `t`, whatever the host presents after
them. -/
def Reaches (ws : List CommandWord) (s t : State) : Prop :=
  ∀ rest : List HostInput,
    Host.Core.run Sys2Proof.core ws.length { s with pending := ws.map (HostInput.edge false) ++ rest } =
      .next { t with pending := rest }

/-- The input is a NOP edge (R102): `rst` = 0 and `op` = 0. -/
def isNop (x : HostInput) : Bool := !x.rst && opField x.cw == 0

/-- The nine registers at the values of rule R148, with the given PMEM and inputs to come. -/
def cleared (pmem : List Host.Cell) (pending : List HostInput) : State where
  done := false
  status := 0
  cnt := 0
  magic := 0
  ptype := 0
  plen := 0
  xacc := 0
  csb := 0
  cmdc := 0
  pmem := pmem
  pending := pending

/-- The nine registers of two states agree (R13); PMEM and the inputs to come may differ. -/
def SameRegisters (s t : State) : Prop :=
  s.done = t.done ∧ s.status = t.status ∧ s.cnt = t.cnt ∧ s.magic = t.magic ∧ s.ptype = t.ptype ∧
    s.plen = t.plen ∧ s.xacc = t.xacc ∧ s.csb = t.csb ∧ s.cmdc = t.cmdc

/-- The five header bytes of a frame of this type and declared length (R57). -/
def headerBytes (t : Byte) (plen : Half) : List Byte := [0xCA, 0xFE, t, highByte plen, lowByte plen]

/-- The payload bytes a frame operand brings (R57): none before the length field is whole. -/
def tailPayload : FrameTail → List Byte
  | .noLength _ => []
  | .cutShort _ payload => payload
  | .complete _ payload _ _ => payload

/-- The declared length of a buffer (R83), bytes not there counting as 0. -/
def declaredLength (data : List Byte) : Nat := (bigEndian (data.getD 3 0) (data.getD 4 0)).toNat

/-- The payload cells the frame in hand has written so far, in order (R46). -/
def payloadSoFar (s : State) : List Byte :=
  (List.range (min s.plen.toNat (s.cnt.toNat - 5))).map (fun k => pmData s (BitVec.ofNat 16 k))

/-- The invariant of the machine: what ties the registers to each other in every state a run reaches. -/
structure Inv (s : State) : Prop where
  /-- PMEM keeps its canonical form. -/
  pmem_wf : pmemWf s.pmem = true
  /-- No rule writes cell 65535 (R24, R46). -/
  top_cell : lookupCell s.pmem 65535 = none
  /-- STATUS is 0 while DONE = 0 (R16). -/
  quiet : s.done = false → s.status = 0
  /-- A verdict on show is the first failing check of the registers on show (R105). -/
  verdict : s.done = true → s.status = statusCode (firstFailure s)
  /-- Fields no byte of the frame has reached are 0 from `init` (R18, R25). -/
  magic_hi : s.cnt.toNat = 0 → s.magic = 0
  magic_lo : s.cnt.toNat ≤ 1 → lowByte s.magic = 0
  ptype_unwritten : s.cnt.toNat ≤ 2 → s.ptype = 0
  plen_hi : s.cnt.toNat ≤ 3 → s.plen = 0
  plen_lo : s.cnt.toNat ≤ 4 → lowByte s.plen = 0
  /-- CSB is 0 until the byte at offset 5 + PLEN (R22). -/
  csb_unwritten : s.cnt.toNat ≤ 5 + s.plen.toNat → s.csb = 0
  /-- CMDC is 0 until the byte at offset 5, and stays 0 when PLEN = 0 (R23). -/
  cmdc_unwritten : s.cnt.toNat ≤ 5 ∨ s.plen = 0 → s.cmdc = 0
  /-- Once written, CMDC is a copy of PMEM[0] (R23). -/
  cmdc_copy : 5 < s.cnt.toNat → s.plen ≠ 0 → lookupCell s.pmem 0 = some s.cmdc
  /-- Every payload cell the frame has reached has been written, so no power-up content is read there (R115, R149). -/
  payload_listed : ∀ k, k < s.plen.toNat → k + 5 < s.cnt.toNat → (lookupCell s.pmem k).isSome = true
  /-- XACC is the fold of the header fields and of the payload so far (R21). -/
  xacc_fold : s.xacc = xorFold ([highByte s.magic, lowByte s.magic, s.ptype, highByte s.plen, lowByte s.plen] ++ payloadSoFar s)

end Sys2Proof.Safety
end

