-- ==== Sys2Proof/Certificates/Slice0/Obligations.lean ====
section
/-! DEFINITION. The statements for the provers, from the spec's numbered rules. -/

open Sys2Proof Sys2Proof.Machine Sys2Proof.Safety

/-! ## Encodings -/

/-- A step runs the decoded instruction: when what the host presents begins with the edges of code that decodes to `i`
(one edge for a command word, those of FRAME for a buffer, R53, R70), the step is `exec` of `i` on the state without
them. Presenting edges at the head of `pending` is the model's form of the ports (log entry 1). -/
def Obligations.StepRunsTheDecodedInstruction : Prop :=
  ∀ (s : State) (c : Code) (i : Instr) (rest : List HostInput),
    s.pending = inputsOf c ++ rest → decode c = .ok i → step s = exec i { s with pending := rest }

/-- MODEL'S CHOICE (log entry 2): with nothing presented there is no edge, and no run changes anything. -/
def Obligations.NothingPresentedChangesNothing : Prop :=
  ∀ (n : Nat) (s : State), s.pending = [] → Host.Core.run Sys2Proof.core n s = .next s

/-- Words and buffers written out from the encoding tables (R55, R61, R72) decode to what they stand for. -/
def Obligations.WrittenOutWordsDecode : Prop :=
  decodeWord 0b0010101011 = .nop 0xAB ∧ decodeWord 0b0111001010 = .byte 0xCA ∧
  decodeWord 0b1011111111 = .endOp 0xFF ∧ decodeWord 0b1110100101 = .clr 0xA5 ∧
  decodeTableWord 24 0b110010101111111000000001 = some (.data (.complete 0 [] 0 [])) ∧
  decodeTableWord 24 0b110010101111111000000010 = some (.cmd (.complete 0 [] 0 [])) ∧
  decodeTableWord 24 0b110010101111111000000011 = some (.ack (.complete 0 [] 0 []))

/-- The four ranges of command words (R55), with `din` the low eight bits (R54). -/
def Obligations.CommandWordsDecodeByTheirOp : Prop :=
  ∀ w : CommandWord,
    (w.toNat ≤ 0x0FF → decodeWord w = .nop (BitVec.ofNat 8 w.toNat)) ∧
    (0x100 ≤ w.toNat ∧ w.toNat ≤ 0x1FF → decodeWord w = .byte (BitVec.ofNat 8 w.toNat)) ∧
    (0x200 ≤ w.toNat ∧ w.toNat ≤ 0x2FF → decodeWord w = .endOp (BitVec.ofNat 8 w.toNat)) ∧
    (0x300 ≤ w.toNat ∧ w.toNat ≤ 0x3FF → decodeWord w = .clr (BitVec.ofNat 8 w.toNat))

/-- Decoding an encoded well-formed instruction gives it back. -/
def Obligations.DecodeOfEncodeIsTheInstruction : Prop :=
  ∀ i : Instr, i.wellFormed = true → decode (encode i) = .ok i

/-- What the decoder gives is well formed, and encoding it gives the code back: no bit is dropped. -/
def Obligations.EncodeOfDecodeIsTheCode : Prop :=
  ∀ (c : Code) (i : Instr), decode c = .ok i → i.wellFormed = true ∧ encode i = c

/-- A buffer decodes to a frame type exactly when its first three bytes match that row (R61, R62). -/
def Obligations.BufferDecodesExactlyWhenARowMatches : Prop :=
  ∀ (data : List Byte) (i : Instr), decodeBuffer data = .ok i ↔
    ∃ tail : FrameTail, tail.wellFormed = true ∧
      ((i = .data tail ∧ data = 0xCA :: 0xFE :: 0x01 :: tailBytes tail) ∨
       (i = .cmd tail ∧ data = 0xCA :: 0xFE :: 0x02 :: tailBytes tail) ∨
       (i = .ack tail ∧ data = 0xCA :: 0xFE :: 0x03 :: tailBytes tail))

/-- A buffer that matches no row is rejected by the name of what is wrong (R61, R63, R64). -/
def Obligations.OtherBuffersAreRejectedByName : Prop :=
  ∀ (data : List Byte) (r : CodeRejection), decodeBuffer data = .error r ↔
    (data.length < 3 ∧ r = .noTypeByte data.length) ∨
    (∃ m0 m1 t rest, data = m0 :: m1 :: t :: rest ∧ (m0 ≠ 0xCA ∨ m1 ≠ 0xFE) ∧ r = .notMagic (bigEndian m0 m1)) ∨
    (∃ t rest, data = 0xCA :: 0xFE :: t :: rest ∧ (t = 0x00 ∨ 0x04 ≤ t.toNat) ∧ r = .unknownType t)

/-- A table word presented next is the instruction the very next step runs. -/
def Obligations.TableWordRunsAtTheNextStep : Prop :=
  ∀ (s : State) (nbits w : Nat) (i : Instr), decodeTableWord nbits w = some i →
    step (s.withFetchWord nbits w) = exec i s

/-! ## Port operations -/

/-- NOP (R102): no state changes, PMEM included, for every command word 0x000 to 0x0FF. -/
def Obligations.NopChangesNothing : Prop :=
  (∀ (din : Byte) (s : State), exec (.nop din) s = .next s) ∧
  (∀ (s : State) (w : CommandWord) (rest : List HostInput),
    s.pending = .edge false w :: rest → w.toNat ≤ 0x0FF → step s = .next { s with pending := rest })

/-- `absorb` (R104): what a BYTE at offset CNT writes to each register and to each PMEM cell when no verdict is on
show; everything not written keeps its value. -/
def Obligations.ByteIsCapturedByItsOffset : Prop :=
  ∀ (b : Byte) (s : State), s.done = false →
    ∃ t : State, exec (.byte b) s = .next t ∧
      t.done = false ∧ t.status = s.status ∧
      t.cnt.toNat = min (s.cnt.toNat + 1) 131071 ∧
      t.magic = (if s.cnt.toNat = 0 then bigEndian b (lowByte s.magic)
        else if s.cnt.toNat = 1 then bigEndian (highByte s.magic) b else s.magic) ∧
      t.ptype = (if s.cnt.toNat = 2 then b else s.ptype) ∧
      t.plen = (if s.cnt.toNat = 3 then bigEndian b (lowByte s.plen)
        else if s.cnt.toNat = 4 then bigEndian (highByte s.plen) b else s.plen) ∧
      t.xacc = (if s.cnt.toNat < 5 + s.plen.toNat then s.xacc ^^^ b else s.xacc) ∧
      t.csb = (if 5 ≤ s.cnt.toNat ∧ s.cnt.toNat = 5 + s.plen.toNat then b else s.csb) ∧
      t.cmdc = (if s.cnt.toNat = 5 ∧ 5 < 5 + s.plen.toNat then b else s.cmdc) ∧
      (∀ a : Half, pmData t a =
        if 5 ≤ s.cnt.toNat ∧ s.cnt.toNat < 5 + s.plen.toNat ∧ a.toNat = s.cnt.toNat - 5 then b else pmData s a) ∧
      t.pending = s.pending

/-- A BYTE after a verdict drops it and is the first byte of a new frame (R26, R103, R154); after every BYTE the block
is busy. -/
def Obligations.ByteAfterAVerdictStartsANewFrame : Prop :=
  (∀ (b : Byte) (s : State), s.done = true →
    exec (.byte b) s =
      .next { cleared s.pmem s.pending with cnt := 1, magic := bigEndian b 0, xacc := b }) ∧
  (∀ (b : Byte) (s : State), ∃ t : State, exec (.byte b) s = .next t ∧ t.done = false ∧ busy t = true ∧
    cmdValid t = false)

/-- `finalize` (R105): END with no verdict on show writes DONE and the code of the first failing check, and nothing
else. -/
def Obligations.EndRecordsTheFirstFailingCheck : Prop :=
  ∀ (d : Byte) (s : State), s.done = false →
    exec (.endOp d) s = .next { s with
      done := true
      status :=
        if s.cnt.toNat < 5 then 1
        else if s.magic ≠ 0xCAFE then 2
        else if ¬ (s.ptype = 1 ∨ s.ptype = 2 ∨ s.ptype = 3) then 3
        else if s.cnt.toNat < s.plen.toNat + 6 then 4
        else if s.xacc ≠ s.csb then 5
        else if s.ptype = 2 ∧ s.plen = 0 then 6
        else 0 }

/-- END after a verdict is the verdict of the empty buffer (R26, R106, R152). -/
def Obligations.EndAfterAVerdictIsTheEmptyBuffer : Prop :=
  ∀ (d : Byte) (s : State), s.done = true →
    ∃ t : State, exec (.endOp d) s = .next t ∧ t = { cleared s.pmem s.pending with done := true, status := 1 } ∧
      result t = some (.error (.insufficientHeader 0))

/-- CLR (R107): every register to its reset value, PMEM unchanged, busy and cmd_valid 0, the same as a reset edge. -/
def Obligations.ClrDiscardsTheFrame : Prop :=
  ∀ (d : Byte) (s : State),
    ∃ t : State, exec (.clr d) s = .next t ∧ t = cleared s.pmem s.pending ∧ busy t = false ∧ cmdValid t = false ∧
      (∀ (w : CommandWord), step { s with pending := .edge true w :: s.pending } = .next t)

/-- NOP, END and CLR ignore `din`: all 256 command words of each behave alike (R56); BYTE's operand is its `din`. -/
def Obligations.IgnoredDinChangesNothing : Prop :=
  (∀ (s : State) (w v : CommandWord) (rest : List HostInput), opField w = opField v → opField w ≠ 1 →
    step { s with pending := .edge false w :: rest } = step { s with pending := .edge false v :: rest }) ∧
  (∀ b : Byte, decodeWord (commandWord 1 b) = .byte b)

/-! ## Reset -/

/-- Reset (R147): however many edges `rst` stays 1 and whatever the command words, the state is `init`; the first edge
with `rst` = 0 executes its word. -/
def Obligations.ResetEdgesClearAndTheNextWordRuns : Prop :=
  ∀ (s : State) (ws : List CommandWord) (w : CommandWord) (rest : List HostInput), ws ≠ [] →
    s.pending = ws.map (HostInput.edge true) ++ HostInput.edge false w :: rest →
    Host.Core.run Sys2Proof.core ws.length s = .next (cleared s.pmem (.edge false w :: rest)) ∧
    Host.Core.run Sys2Proof.core (ws.length + 1) s = exec (decodeWord w) (cleared s.pmem rest)

/-- Reset values (R148), in the reset state and after any reset edge, with the ports they give; PMEM is not reset
(R149). That the reset state lists no PMEM cell and no input to come is the model's choice (log entries 1 and 5). -/
def Obligations.PortsAfterReset : Prop :=
  (∀ (s : State) (w : CommandWord) (rest : List HostInput) (a : Half), s.pending = .edge true w :: rest →
    ∃ t : State, step s = .next t ∧ t = cleared s.pmem rest ∧
      outPorts t a = ⟨false, 0, false, 0, 0, 0, 0, 6, 0, 0, 0, false, pmData s a⟩) ∧
  State.reset = cleared [] [] ∧
  (∀ a : Half, outPorts State.reset a =
    ⟨false, 0, false, 0, 0, 0, 0, 6, 0, 0, 0, false, Config.pmemPowerUp a⟩)

/-! ## Whole-machine rules -/

/-- Every instruction completes in every state, in one edge. A port operation leaves what the host presents next alone; a
frame type, whose first edge is the BYTE of CA, has the host present the rest of its run next (log entry 3). No
instruction writes cell 65535 (R24), and DONE is as rule R15 says. -/
def Obligations.EveryInstructionCompletes : Prop :=
  ∀ (i : Instr) (s : State), ∃ t : State, exec i s = .next t ∧
    pmData t 0xFFFF = pmData s 0xFFFF ∧
    (t.done = match i with
      | .nop _ => s.done
      | .byte _ => false
      | .endOp _ => true
      | .clr _ => false
      | .data _ => false
      | .cmd _ => false
      | .ack _ => false) ∧
    t.pending = match i with
      | .nop _ => s.pending
      | .byte _ => s.pending
      | .endOp _ => s.pending
      | .clr _ => s.pending
      | .data tail => frameEdges (0xFE :: 0x01 :: tailBytes tail) ++ s.pending
      | .cmd tail => frameEdges (0xFE :: 0x02 :: tailBytes tail) ++ s.pending
      | .ack tail => frameEdges (0xFE :: 0x03 :: tailBytes tail) ++ s.pending

/-- No sequence of inputs stalls, hangs or traps: every run of every length from every state ends in a state (R116,
R135). -/
def Obligations.EveryRunGoesOn : Prop :=
  ∀ (n : Nat) (s : State), ∃ t : State, Host.Core.run Sys2Proof.core n s = .next t

/-- DONE tells the last operation (R15): only END sets it; BYTE, CLR and reset clear it; NOP keeps it. -/
def Obligations.DoneTellsTheLastOperation : Prop :=
  ∀ s t : State, step s = .next t →
    t.done = match s.pending with
      | [] => s.done
      | .edge true _ :: _ => false
      | .edge false w :: _ =>
        if w.toNat ≤ 0x0FF then s.done else if w.toNat ≤ 0x1FF then false
        else if w.toNat ≤ 0x2FF then true else false

/-- No operation's behaviour depends on STATUS (R16). Either the step keeps STATUS, and from any other STATUS it does the
same and keeps that one; or it overwrites STATUS, and from any other STATUS it gives the very same state. -/
def Obligations.NoOperationDependsOnStatus : Prop :=
  ∀ s t : State, step s = .next t →
    (t.status = s.status ∧ ∀ c : StatusCode, step { s with status := c } = .next { t with status := c }) ∨
    (∀ c : StatusCode, step { s with status := c } = .next t)

/-- No operation reads PMEM (R38). Whatever PMEM holds, the step gives the same registers and writes the same byte to the
same one cell, or none; every other cell is what it was. -/
def Obligations.NoOperationReadsPayloadMemory : Prop :=
  ∀ s t : State, step s = .next t → ∃ written : Option (Nat × Byte), ∀ m : List Host.Cell,
    ∃ m' : List Host.Cell, step { s with pmem := m } = .next { t with pmem := m' } ∧
      match written with
      | none => m' = m
      | some (cell, b) => ∀ k : Nat, lookupCell m' k = if k = cell then some b else lookupCell m k

/-- Only BYTE writes PMEM (R24, R38): NOP, END, CLR and reset leave it alone, and no step at all writes cell 65535. -/
def Obligations.OnlyByteWritesPayloadMemory : Prop :=
  (∀ (s t : State) (rst : Bool) (w : CommandWord) (rest : List HostInput), s.pending = .edge rst w :: rest →
    rst = true ∨ ¬ (0x100 ≤ w.toNat ∧ w.toNat ≤ 0x1FF) → step s = .next t → t.pmem = s.pmem) ∧
  (∀ s t : State, step s = .next t → pmData t 0xFFFF = pmData s 0xFFFF)

/-- The output ports are the named functions of the state (R28, R30): the sums are exact, `busy` and `cmd_valid` are
as rule R28 defines them, and `busy` is 0 while a verdict is on show. -/
def Obligations.PortsAreFunctionsOfTheState : Prop :=
  ∀ (s : State) (a : Half),
    (outPorts s a).expTotal.toNat = s.plen.toNat + 6 ∧
    ((outPorts s a).busy = true ↔ s.done = false ∧ s.cnt.toNat ≠ 0) ∧
    ((outPorts s a).cmdValid = true ↔ s.done = true ∧ s.status = 0 ∧ s.ptype = 0x02) ∧
    ((outPorts s a).done = true → (outPorts s a).busy = false) ∧
    (∀ b, lookupCell s.pmem a.toNat = some b → (outPorts s a).pmData = b) ∧
    (outPorts s a).count = s.cnt ∧ (outPorts s a).status = s.status ∧ (outPorts s a).magic = s.magic ∧
    (outPorts s a).ptype = s.ptype ∧ (outPorts s a).plen = s.plen ∧ (outPorts s a).xacc = s.xacc ∧
    (outPorts s a).csum = s.csb ∧ (outPorts s a).cmdCode = s.cmdc ∧ (outPorts s a).done = s.done

/-! ## Frames -/

/-- A frame is the run of its edges (R53, R70, R111), from every state. A frame instruction takes the first; the run of
k more steps is the first k + 1 bytes absorbed, with the words of the others still to come; and END closes it. Any other
buffer, presented by the same edges, runs alike. That the instruction hands the rest of its run to the host is the model's
form (log entry 3). -/
def Obligations.FrameIsTheRunOfItsEdges : Prop :=
  (∀ (s : State) (data : List Byte) (i : Instr), decodeBuffer data = .ok i →
    ∃ t : State, exec i s = .next t ∧
      (∀ k : Nat, k < data.length →
        Host.Core.run Sys2Proof.core k t = .next { presentBytes (data.take (k + 1)) s with
          pending := frameEdges (data.drop (k + 1)) ++ s.pending }) ∧
      Host.Core.run Sys2Proof.core data.length t = .next (presentFrame data s)) ∧
  (∀ (s : State) (data : List Byte),
    Host.Core.run Sys2Proof.core (data.length + 1) (present (frameEdges data) s) = .next (presentFrame data s))

/-- DATA (R95), each shape of its operand, from where a frame begins: the instruction's edge, and the state after the
rest of its run. -/
def Obligations.DataFrameGivesItsVerdict : Prop :=
  ∀ s : State, FrameStart s →
    (∀ rest : List Byte, rest.length < 2 → ∃ t u : State, exec (.data (.noLength rest)) s = .next t ∧
      Host.Core.run Sys2Proof.core (rest.length + 3) t = .next u ∧
      result u = some (.error (.insufficientHeader (3 + rest.length)))) ∧
    (∀ (plen : Half) (payload : List Byte), payload.length ≤ plen.toNat →
      ∃ t u : State, exec (.data (.cutShort plen payload)) s = .next t ∧
        Host.Core.run Sys2Proof.core (payload.length + 5) t = .next u ∧
        result u = some (.error (.insufficientBody (plen.toNat + 6) (5 + payload.length)))) ∧
    (∀ (plen : Half) (payload : List Byte) (csum : Byte) (trailing : List Byte), payload.length = plen.toNat →
      ∃ t u : State, exec (.data (.complete plen payload csum trailing)) s = .next t ∧
        Host.Core.run Sys2Proof.core (payload.length + trailing.length + 6) t = .next u ∧ u.done = true ∧
        cmdValid u = false ∧
        if xorFold (headerBytes 0x01 plen ++ payload) ≠ csum then
          result u = some (.error (.checksumMismatch (xorFold (headerBytes 0x01 plen ++ payload)) csum))
        else u.status = 0 ∧ result u = some (.packet ⟨0xCAFE, 0x01, plen, payload, csum, none⟩))

/-- CMD (R96), each shape of its operand, from where a frame begins: with an empty payload and the right checksum the
verdict is EmptyCommandPayload. -/
def Obligations.CmdFrameGivesItsVerdict : Prop :=
  ∀ s : State, FrameStart s →
    (∀ rest : List Byte, rest.length < 2 → ∃ t u : State, exec (.cmd (.noLength rest)) s = .next t ∧
      Host.Core.run Sys2Proof.core (rest.length + 3) t = .next u ∧
      result u = some (.error (.insufficientHeader (3 + rest.length)))) ∧
    (∀ (plen : Half) (payload : List Byte), payload.length ≤ plen.toNat →
      ∃ t u : State, exec (.cmd (.cutShort plen payload)) s = .next t ∧
        Host.Core.run Sys2Proof.core (payload.length + 5) t = .next u ∧
        result u = some (.error (.insufficientBody (plen.toNat + 6) (5 + payload.length)))) ∧
    (∀ (plen : Half) (payload : List Byte) (csum : Byte) (trailing : List Byte), payload.length = plen.toNat →
      ∃ t u : State, exec (.cmd (.complete plen payload csum trailing)) s = .next t ∧
        Host.Core.run Sys2Proof.core (payload.length + trailing.length + 6) t = .next u ∧ u.done = true ∧
        if xorFold (headerBytes 0x02 plen ++ payload) ≠ csum then
          cmdValid u = false ∧
          result u = some (.error (.checksumMismatch (xorFold (headerBytes 0x02 plen ++ payload)) csum))
        else match payload with
          | [] => cmdValid u = false ∧ result u = some (.error .emptyCommandPayload)
          | code :: more => u.status = 0 ∧ cmdValid u = true ∧ u.cmdc = code ∧
              result u = some (.packet ⟨0xCAFE, 0x02, plen, code :: more, csum, some code⟩))

/-- ACK (R97), each shape of its operand, from where a frame begins: as DATA. -/
def Obligations.AckFrameGivesItsVerdict : Prop :=
  ∀ s : State, FrameStart s →
    (∀ rest : List Byte, rest.length < 2 → ∃ t u : State, exec (.ack (.noLength rest)) s = .next t ∧
      Host.Core.run Sys2Proof.core (rest.length + 3) t = .next u ∧
      result u = some (.error (.insufficientHeader (3 + rest.length)))) ∧
    (∀ (plen : Half) (payload : List Byte), payload.length ≤ plen.toNat →
      ∃ t u : State, exec (.ack (.cutShort plen payload)) s = .next t ∧
        Host.Core.run Sys2Proof.core (payload.length + 5) t = .next u ∧
        result u = some (.error (.insufficientBody (plen.toNat + 6) (5 + payload.length)))) ∧
    (∀ (plen : Half) (payload : List Byte) (csum : Byte) (trailing : List Byte), payload.length = plen.toNat →
      ∃ t u : State, exec (.ack (.complete plen payload csum trailing)) s = .next t ∧
        Host.Core.run Sys2Proof.core (payload.length + trailing.length + 6) t = .next u ∧ u.done = true ∧
        cmdValid u = false ∧
        if xorFold (headerBytes 0x03 plen ++ payload) ≠ csum then
          result u = some (.error (.checksumMismatch (xorFold (headerBytes 0x03 plen ++ payload)) csum))
        else u.status = 0 ∧ result u = some (.packet ⟨0xCAFE, 0x03, plen, payload, csum, none⟩))

/-- What a frame instruction leaves in PMEM at the end of its run (R44, R46): cell k holds payload byte k for the payload bytes the buffer
brings, every other cell what it held before; what the host presents next is untouched. -/
def Obligations.FrameInstructionsWriteOnlyTheirPayloadCells : Prop :=
  ∀ (s : State) (tail : FrameTail) (i : Instr), FrameStart s → tail.wellFormed = true →
    i = .data tail ∨ i = .cmd tail ∨ i = .ack tail →
    ∃ t u : State, exec i s = .next t ∧
      Host.Core.run Sys2Proof.core ((tailBytes tail).length + 3) t = .next u ∧ u.pending = s.pending ∧
      ∀ a : Half, pmData u a =
        if a.toNat < (tailPayload tail).length then (tailPayload tail).getD a.toNat 0 else pmData s a

/-- The registers and PMEM after a whole buffer (R46 and the sketch of R113), whatever the buffer, from where a frame
begins. -/
def Obligations.RegistersAfterAWholeBuffer : Prop :=
  ∀ (s : State) (data : List Byte), FrameStart s →
    ∃ t : State, Reaches (frameWords data) s t ∧ t.done = true ∧
      t.cnt.toNat = min data.length 131071 ∧
      t.magic = bigEndian (data.getD 0 0) (data.getD 1 0) ∧
      t.ptype = data.getD 2 0 ∧
      t.plen = bigEndian (data.getD 3 0) (data.getD 4 0) ∧
      t.xacc = xorFold (data.take (5 + declaredLength data)) ∧
      t.csb = data.getD (5 + declaredLength data) 0 ∧
      t.cmdc = (if 1 ≤ declaredLength data then data.getD 5 0 else 0) ∧
      ∀ a : Half, pmData t a =
        if a.toNat < min (declaredLength data) (data.length - 5) then data.getD (5 + a.toNat) 0 else pmData s a

/-- What the ports show during a frame, after the bytes `bs` (R118). -/
def Obligations.PortsDuringAFrame : Prop :=
  ∀ (s : State) (bs : List Byte), FrameStart s → bs ≠ [] ∨ initRegs s = s →
    ∃ t : State, Reaches (bs.map (commandWord 1)) s t ∧
      ∀ a : Half, outPorts t a =
        { done := false
          status := 0
          busy := decide (1 ≤ bs.length)
          count := BitVec.ofNat 17 (min bs.length 131071)
          magic := bigEndian (bs.getD 0 0) (bs.getD 1 0)
          ptype := bs.getD 2 0
          plen := bigEndian (bs.getD 3 0) (bs.getD 4 0)
          expTotal := BitVec.ofNat 17 (declaredLength bs + 6)
          xacc := xorFold (bs.take (5 + declaredLength bs))
          csum := bs.getD (5 + declaredLength bs) 0
          cmdCode := if 1 ≤ declaredLength bs then bs.getD 5 0 else 0
          cmdValid := false
          pmData :=
            if a.toNat < min (declaredLength bs) (bs.length - 5) then bs.getD (5 + a.toNat) 0 else pmData s a }

/-- Equivalence with `decode` (R113), the correctness statement of the hardware: BYTE for every byte of any buffer and
then END, with NOPs anywhere, gives a verdict whose result is `decode` of the buffer. -/
def Obligations.HardwareComputesDecode : Prop :=
  ∀ (s : State) (data : List Byte) (d : Byte) (ws : List CommandWord), FrameStart s →
    ws.filter (fun w => opField w != 0) = data.map (commandWord 1) ++ [commandWord 2 d] →
    ∃ t : State, Reaches ws s t ∧ t.done = true ∧ result t = some (refDecode data)

/-- NOP is transparent (R114): removing the NOPs from any sequence of inputs does not change the state reached. -/
def Obligations.NopsAreTransparent : Prop :=
  ∀ (s : State) (xs rest : List HostInput),
    Host.Core.run Sys2Proof.core xs.length { s with pending := xs ++ rest } =
      Host.Core.run Sys2Proof.core (xs.filter (fun x => !isNop x)).length
        { s with pending := xs.filter (fun x => !isNop x) ++ rest }

/-- Frames are independent (R115): two states in which a frame begins give the same registers and the same result for
the same buffer; the PMEM cells the buffer writes agree, and the others are what each held. -/
def Obligations.FramesAreIndependent : Prop :=
  ∀ (s₁ s₂ : State) (data : List Byte), FrameStart s₁ → FrameStart s₂ →
    ∃ t₁ t₂ : State, Reaches (frameWords data) s₁ t₁ ∧ Reaches (frameWords data) s₂ t₂ ∧ SameRegisters t₁ t₂ ∧ result t₁ = result t₂ ∧
      ∀ a : Half,
        if a.toNat < t₁.plen.toNat ∧ a.toNat + 5 < data.length then pmData t₁ a = pmData t₂ a
        else pmData t₁ a = pmData s₁ a ∧ pmData t₂ a = pmData s₂ a

/-- The checksum generator (R112): after k of the header and payload bytes `xacc` is their fold; more bytes after the
payload do not change it; and presented as the checksum byte it is accepted. -/
def Obligations.XaccGeneratesTheChecksum : Prop :=
  ∀ (s : State) (b0 b1 b2 b3 b4 : Byte) (payload : List Byte), FrameStart s →
    payload.length = (bigEndian b3 b4).toNat →
    (∀ k : Nat, 1 ≤ k → k ≤ 5 + payload.length →
      ∃ t : State, Reaches ((([b0, b1, b2, b3, b4] ++ payload).take k).map (commandWord 1)) s t ∧
        t.xacc = xorFold (([b0, b1, b2, b3, b4] ++ payload).take k)) ∧
    (∀ more : List Byte,
      ∃ t : State, Reaches (([b0, b1, b2, b3, b4] ++ payload ++ more).map (commandWord 1)) s t ∧
        t.xacc = xorFold ([b0, b1, b2, b3, b4] ++ payload)) ∧
    (bigEndian b0 b1 = 0xCAFE → b2 = 1 ∨ b2 = 2 ∨ b2 = 3 → (b2 = 2 → payload ≠ []) →
      ∃ t : State,
        Reaches (frameWords ([b0, b1, b2, b3, b4] ++ payload ++ [xorFold ([b0, b1, b2, b3, b4] ++ payload)])) s t ∧
        t.done = true ∧ t.status = 0)

/-- A sequence of buffers gives the list of their results, one per END (R146): after the END of the k-th buffer the
result is `decode` of it. -/
def Obligations.BuffersInSequenceGiveTheirResults : Prop :=
  ∀ (s : State) (buffers : List (List Byte)), FrameStart s →
    ∀ (k : Nat) (h : k < buffers.length), ∃ t : State, Reaches ((buffers.take (k + 1)).flatMap frameWords) s t ∧
      t.done = true ∧ result t = some (refDecode buffers[k])

/-! ## The reference function -/

/-- The laws of `xor_fold` (R79): the accumulator starts at zero and takes each byte once, and the order of the bytes
does not matter. -/
def Obligations.XorFoldLaws : Prop :=
  xorFold [] = 0 ∧ (∀ (bs : List Byte) (b : Byte), xorFold (bs ++ [b]) = xorFold bs ^^^ b) ∧
  (∀ bs cs : List Byte, xorFold (bs ++ cs) = xorFold bs ^^^ xorFold cs) ∧
  (∀ bs cs : List Byte, bs.Perm cs → xorFold bs = xorFold cs)

/-- Checks 1, 2, 3 and 5 of `decode` (R80, R81, R82, R84): what each reports, whatever the rest of the buffer holds. -/
def Obligations.EarlyChecksReportInOrder : Prop :=
  (∀ data : List Byte, data.length < 5 → refDecode data = .error (.insufficientHeader data.length)) ∧
  (∀ (b0 b1 b2 b3 b4 : Byte) (body : List Byte),
    (b0.toNat * 256 + b1.toNat ≠ 0xCAFE →
      refDecode (b0 :: b1 :: b2 :: b3 :: b4 :: body) = .error (.invalidMagic (bigEndian b0 b1))) ∧
    (b0.toNat * 256 + b1.toNat = 0xCAFE → ¬ (b2 = 1 ∨ b2 = 2 ∨ b2 = 3) →
      refDecode (b0 :: b1 :: b2 :: b3 :: b4 :: body) = .error (.unknownType b2)) ∧
    (b0.toNat * 256 + b1.toNat = 0xCAFE → b2 = 1 ∨ b2 = 2 ∨ b2 = 3 →
      5 + body.length < 5 + (b3.toNat * 256 + b4.toNat) + 1 →
      refDecode (b0 :: b1 :: b2 :: b3 :: b4 :: body) =
        .error (.insufficientBody (5 + (b3.toNat * 256 + b4.toNat) + 1) (5 + body.length))))

/-- Checks 7 and 8 and the success of `decode` (R86, R87, R88), for a buffer whose earlier checks pass;
and the CMD frame of length 0 with no checksum byte, which check 5 reports (R87). -/
def Obligations.LateChecksReportInOrder : Prop :=
  (∀ (b2 : Byte) (plen : Half) (payload : List Byte) (c : Byte) (trailing : List Byte),
    payload.length = plen.toNat → b2 = 1 ∨ b2 = 2 ∨ b2 = 3 →
    (xorFold (headerBytes b2 plen ++ payload) ≠ c →
      refDecode (headerBytes b2 plen ++ payload ++ c :: trailing) =
        .error (.checksumMismatch (xorFold (headerBytes b2 plen ++ payload)) c)) ∧
    (xorFold (headerBytes b2 plen ++ payload) = c → b2 = 2 → payload = [] →
      refDecode (headerBytes b2 plen ++ payload ++ c :: trailing) = .error .emptyCommandPayload) ∧
    (xorFold (headerBytes b2 plen ++ payload) = c → (b2 = 2 → payload ≠ []) →
      refDecode (headerBytes b2 plen ++ payload ++ c :: trailing) =
        .packet ⟨0xCAFE, b2, plen, payload, c, if b2 = 2 then payload.head? else none⟩)) ∧
  refDecode (headerBytes 2 0) = .error (.insufficientBody 6 5)

/-- Round trip (R71, R100 d): a packet built with its right checksum decodes to its type, length and payload. -/
def Obligations.PacketRoundTrips : Prop :=
  ∀ (t : Byte) (payload : List Byte), t = 1 ∨ t = 2 ∨ t = 3 → payload.length ≤ 65535 → (t = 2 → payload ≠ []) →
    refDecode (packetBuffer t payload) =
      .packet ⟨0xCAFE, t, BitVec.ofNat 16 payload.length, payload,
        xorFold (headerBytes t (BitVec.ofNat 16 payload.length) ++ payload), if t = 2 then payload.head? else none⟩

/-- Another byte in the checksum position turns success into ChecksumMismatch (R100 e). -/
def Obligations.AnotherChecksumByteIsAMismatch : Prop :=
  ∀ (data : List Byte) (p : Packet) (c : Byte), refDecode data = .packet p → c ≠ p.checksum →
    refDecode (data.set (5 + p.payloadLength.toNat) c) = .error (.checksumMismatch p.checksum c)

/-- Trailing bytes change nothing (R91): once a buffer reaches its checksum byte, more bytes give the same value. -/
def Obligations.TrailingBytesChangeNothing : Prop :=
  ∀ (data extra : List Byte) (r : DecodeResult), refDecode data = r →
    (∃ p, r = .packet p) ∨ (∃ e a, r = .error (.checksumMismatch e a)) ∨ r = .error .emptyCommandPayload →
    refDecode (data ++ extra) = r

/-- What holds of every returned Packet (R90). -/
def Obligations.ReturnedPacketsAreValid : Prop :=
  ∀ (data : List Byte) (p : Packet), refDecode data = .packet p →
    p.magic = 0xCAFE ∧ (p.packetType = 0x01 ∨ p.packetType = 0x02 ∨ p.packetType = 0x03) ∧
    5 + p.payloadLength.toNat + 1 ≤ data.length ∧
    p.checksum = xorFold (data.take (5 + p.payloadLength.toNat)) ∧
    p.payload = (data.drop 5).take p.payloadLength.toNat ∧ p.payload.length = p.payloadLength.toNat ∧
    (p.packetType = 0x02 → p.payload ≠ [] ∧ p.commandCode = p.payload.head?) ∧
    (p.packetType ≠ 0x02 → p.commandCode = none)

/-- The errors `decode` returns (R75, R98): six kinds, never InvalidInput, each field in its range. -/
def Obligations.ReturnedErrorsAreInRange : Prop :=
  ∀ (data : List Byte) (e : DecodeError), refDecode data = .error e →
    match e with
    | .insufficientHeader available => available = data.length ∧ available ≤ 4
    | .invalidMagic got => got ≠ 0xCAFE
    | .unknownType got => got = 0x00 ∨ 0x04 ≤ got.toNat
    | .insufficientBody expected available =>
        6 ≤ expected ∧ expected ≤ 65541 ∧ 5 ≤ available ∧ available ≤ 65540 ∧ available < expected ∧
          available = data.length
    | .checksumMismatch expected actual => expected ≠ actual
    | .emptyCommandPayload => (data.take 6) = [0xCA, 0xFE, 0x02, 0x00, 0x00, 0x36]
    | .invalidInput => False

/-! ## The invariant -/

/-- The invariant holds in the reset state. -/
def Obligations.InvariantHoldsAtReset : Prop := Inv State.reset

/-- Every step keeps the invariant, from every state that meets it. -/
def Obligations.StepKeepsTheInvariant : Prop :=
  ∀ s t : State, Inv s → step s = .next t → Inv t

/-- Whenever a verdict is on show, it can be read and is one of the six kinds or a Packet, never code 7 (R126, R135);
while none is on show STATUS is 0 (R16). -/
def Obligations.EveryVerdictCanBeRead : Prop :=
  ∀ s : State, Inv s → s.status ≠ 7 ∧ (s.done = false → s.status = 0 ∧ result s = none) ∧
    (s.done = true → ∃ r, result s = some r ∧ r ≠ .error .invalidInput)

/-- When DONE = 1 and STATUS = 0 the state shows a Packet (R28, R34, R90) whose payload cells the block has all
written, and `cmd_valid` means CMDC is its first payload byte. -/
def Obligations.OkVerdictShowsAPacket : Prop :=
  ∀ s : State, Inv s → s.done = true → s.status = 0 →
    ∃ p : Packet, result s = some (.packet p) ∧ p.magic = 0xCAFE ∧ s.magic = 0xCAFE ∧
      (p.packetType = 0x01 ∨ p.packetType = 0x02 ∨ p.packetType = 0x03) ∧
      p.payload.length = p.payloadLength.toNat ∧
      p.checksum = s.xacc ∧ p.checksum = xorFold (headerBytes p.packetType p.payloadLength ++ p.payload) ∧
      (∀ k, k < p.payloadLength.toNat → lookupCell s.pmem k = p.payload[k]?) ∧
      (cmdValid s = true → p.payload.head? = some s.cmdc ∧ p.commandCode = some s.cmdc)

/-! ## Edges -/

/-- One edge is one step (R11): the registers and PMEM after an edge are a function of those before it and of `rst`, `op`
and `din` at that edge, whatever the host presents later; and the output ports are functions of the state alone, `pm_data`
of `pm_addr` too. -/
def Obligations.OneEdgeIsOneStep : Prop :=
  (∀ (s : State) (x : HostInput), ∃ t : State, ∀ rest : List HostInput,
    step { s with pending := x :: rest } = .next { t with pending := rest }) ∧
  (∀ (s : State) (rest : List HostInput) (a : Half), outPorts { s with pending := rest } a = outPorts s a) ∧
  (∀ (s : State) (a b : Half), { outPorts s a with pmData := 0 } = { outPorts s b with pmData := 0 })
end

