-- ==== Sys2Proof/Laws/Bytes.lean ====
section
/-! SUPPORT. The bit-field helpers as arithmetic (R39, R54), how they undo each other, and the laws of the XOR fold that
other lemmas use. -/

namespace Sys2Proof

/-- `data[0] * 256 + data[1]` (R39). -/
theorem bigEndian_toNat (hi lo : Byte) : (bigEndian hi lo).toNat = hi.toNat * 256 + lo.toNat := by
  have e : (bigEndian hi lo).toNat = hi.toNat <<< 8 ||| lo.toNat := BitVec.toNat_append hi lo
  rw [e, ← Nat.shiftLeft_add_eq_or_of_lt lo.isLt, Nat.shiftLeft_eq]

theorem highByte_toNat (h : Half) : (highByte h).toNat = h.toNat / 256 := by
  have := h.isLt
  simp only [highByte, BitVec.extractLsb'_toNat, Nat.shiftRight_eq_div_pow]
  omega

theorem lowByte_toNat (h : Half) : (lowByte h).toNat = h.toNat % 256 := by
  simp only [lowByte, BitVec.extractLsb'_toNat, Nat.shiftRight_eq_div_pow]
  omega

/-- `cw = op * 256 + din` (R54). -/
theorem commandWord_toNat (op : BitVec 2) (din : Byte) :
    (commandWord op din).toNat = op.toNat * 256 + din.toNat := by
  have e : (commandWord op din).toNat = op.toNat <<< 8 ||| din.toNat := BitVec.toNat_append op din
  rw [e, ← Nat.shiftLeft_add_eq_or_of_lt din.isLt, Nat.shiftLeft_eq]

theorem opField_toNat (cw : CommandWord) : (opField cw).toNat = cw.toNat / 256 := by
  have := cw.isLt
  simp only [opField, BitVec.extractLsb'_toNat, Nat.shiftRight_eq_div_pow]
  omega

theorem dinField_toNat (cw : CommandWord) : (dinField cw).toNat = cw.toNat % 256 := by
  simp only [dinField, BitVec.extractLsb'_toNat, Nat.shiftRight_eq_div_pow]
  omega

@[simp] theorem highByte_bigEndian (hi lo : Byte) : highByte (bigEndian hi lo) = hi := by
  apply BitVec.eq_of_toNat_eq
  have := lo.isLt
  rw [highByte_toNat, bigEndian_toNat]; omega

@[simp] theorem lowByte_bigEndian (hi lo : Byte) : lowByte (bigEndian hi lo) = lo := by
  apply BitVec.eq_of_toNat_eq
  have := lo.isLt
  rw [lowByte_toNat, bigEndian_toNat]; omega

@[simp] theorem bigEndian_highByte_lowByte (h : Half) : bigEndian (highByte h) (lowByte h) = h := by
  apply BitVec.eq_of_toNat_eq
  rw [bigEndian_toNat, highByte_toNat, lowByte_toNat]; omega

@[simp] theorem opField_commandWord (op : BitVec 2) (din : Byte) : opField (commandWord op din) = op := by
  apply BitVec.eq_of_toNat_eq
  have := din.isLt
  rw [opField_toNat, commandWord_toNat]; omega

@[simp] theorem dinField_commandWord (op : BitVec 2) (din : Byte) : dinField (commandWord op din) = din := by
  apply BitVec.eq_of_toNat_eq
  have := din.isLt
  rw [dinField_toNat, commandWord_toNat]; omega

@[simp] theorem commandWord_fields (cw : CommandWord) : commandWord (opField cw) (dinField cw) = cw := by
  apply BitVec.eq_of_toNat_eq
  rw [commandWord_toNat, opField_toNat, dinField_toNat]; omega

/-- The four command words of a byte decode by their `op` (R55). -/
theorem decodeWord_commandWord (op : BitVec 2) (din : Byte) :
    decodeWord (commandWord op din) =
      if op = 0 then .nop din else if op = 1 then .byte din else if op = 2 then .endOp din else .clr din := by
  simp [decodeWord]

end Sys2Proof

namespace Sys2Proof.Machine

theorem xorFoldFrom_append (acc : Byte) (bs cs : List Byte) :
    xorFoldFrom acc (bs ++ cs) = xorFoldFrom (xorFoldFrom acc bs) cs := by
  induction bs generalizing acc with
  | nil => rfl
  | cons b rest ih => simp [xorFoldFrom, ih]

/-- One more byte at the end is one more XOR (R21). -/
theorem xorFold_concat (bs : List Byte) (b : Byte) : xorFold (bs ++ [b]) = xorFold bs ^^^ b := by
  simp [xorFold, xorFoldFrom_append, xorFoldFrom]

end Sys2Proof.Machine
end

