-- ==== Sys2Proof/Laws/Operands.lean ====
section
/-! SUPPORT. The 17-bit sums are exact and the counter saturates (R92, R109). -/

namespace Sys2Proof.Machine

theorem sat17_toNat (n : Nat) : (sat17 n).toNat = min n 131071 := by
  have : min n 131071 < 2 ^ 17 := by omega
  simp only [sat17, Config.cntMax, BitVec.toNat_ofNat]
  exact Nat.mod_eq_of_lt this

theorem checksumOffset_toNat (s : State) : (checksumOffset s).toNat = 5 + s.plen.toNat := by
  have := s.plen.isLt
  simp only [checksumOffset, Config.hdrLen, BitVec.toNat_add, BitVec.toNat_setWidth, BitVec.toNat_ofNat]
  omega

theorem expTotal_toNat (s : State) : (expTotal s).toNat = s.plen.toNat + 6 := by
  have := s.plen.isLt
  simp only [expTotal, Config.hdrLen, Config.csumLen, BitVec.toNat_add, BitVec.toNat_setWidth, BitVec.toNat_ofNat]
  omega

theorem cnt_lt_checksumOffset (s : State) : s.cnt < checksumOffset s ↔ s.cnt.toNat < 5 + s.plen.toNat := by
  rw [BitVec.lt_def, checksumOffset_toNat]

theorem cnt_eq_checksumOffset (s : State) : s.cnt = checksumOffset s ↔ s.cnt.toNat = 5 + s.plen.toNat := by
  rw [← checksumOffset_toNat, ← BitVec.toNat_inj]

theorem cnt_lt_expTotal (s : State) : s.cnt < expTotal s ↔ s.cnt.toNat < s.plen.toNat + 6 := by
  rw [BitVec.lt_def, expTotal_toNat]

/-- A count saturated at 131071 compares with every threshold up to 65541 as the true count does (R117). -/
theorem saturated_lt_iff {n T : Nat} (hT : T ≤ 65541) : min n 131071 < T ↔ n < T := by omega

end Sys2Proof.Machine
end

