-- ==== Sys2Proof/Laws/Flags.lean ====
section
/-! SUPPORT. The code END records, as one chain of tests on the registers (R105, R119). -/

namespace Sys2Proof.Machine

theorem knownType_eq_false (t : Byte) : knownType t = false ↔ ¬ (t = 1 ∨ t = 2 ∨ t = 3) := by
  simp [knownType, Config.typeData, Config.typeCmd, Config.typeAck, and_assoc]

/-- The first failing check, in the order of rule R105, with the codes of rule R119. -/
theorem statusCode_firstFailure (s : State) :
    statusCode (firstFailure s) =
      if s.cnt.toNat < 5 then 1
      else if s.magic ≠ 0xCAFE then 2
      else if ¬ (s.ptype = 1 ∨ s.ptype = 2 ∨ s.ptype = 3) then 3
      else if s.cnt.toNat < s.plen.toNat + 6 then 4
      else if s.xacc ≠ s.csb then 5
      else if s.ptype = 2 ∧ s.plen = 0 then 6
      else 0 := by
  have h5 : s.cnt < BitVec.ofNat 17 Config.hdrLen ↔ s.cnt.toNat < 5 := by rw [BitVec.lt_def]; rfl
  simp only [firstFailure, apply_ite statusCode, knownType_eq_false, cnt_lt_expTotal, h5]
  rfl

/-- END never records code 7 (R126). -/
theorem statusCode_firstFailure_ne_seven (s : State) : statusCode (firstFailure s) ≠ 7 := by
  rw [statusCode_firstFailure]
  split_ifs <;> decide

end Sys2Proof.Machine
end

