-- ==== Sys2Proof/Laws/Memory.lean ====
section
/-! SUPPORT. The laws of payload memory: read after write, the canonical form is kept, and canonical memories that read
alike are the same list. -/

namespace Sys2Proof.Machine

/-- Read after write (R43, R44): the cell written gives the byte, every other cell what it gave before. -/
theorem lookupCell_memWrite (m : List Host.Cell) (a : Nat) (b : Byte) (c : Nat) :
    lookupCell (memWrite m a b) c = if c = a then some b else lookupCell m c := by
  induction m with
  | nil => simp [memWrite, lookupCell, eq_comm]
  | cons cell rest ih =>
    obtain ⟨k, v⟩ := cell
    have hstep : ∀ l : List Host.Cell, lookupCell ((k, v) :: l) c = if k = c then some v else lookupCell l c :=
      fun _ => rfl
    have hnew : ∀ l : List Host.Cell, lookupCell ((a, b) :: l) c = if a = c then some b else lookupCell l c :=
      fun _ => rfl
    rcases Nat.lt_trichotomy k a with hlt | heq | hgt
    · have hw : memWrite ((k, v) :: rest) a b = (k, v) :: memWrite rest a b := if_pos hlt
      rw [hw, hstep, hstep, ih]
      by_cases hc : c = a
      · have : ¬ k = c := by omega
        simp [hc, show ¬ k = a by omega]
      · simp [hc]
    · subst heq
      have hw : memWrite ((k, v) :: rest) k b = (k, b) :: rest := by simp [memWrite]
      rw [hw, hnew, hstep]
      by_cases hc : c = k
      · simp [hc]
      · simp [hc, show ¬ k = c from fun h => hc h.symm]
    · have hw : memWrite ((k, v) :: rest) a b = (a, b) :: (k, v) :: rest := by
        simp [memWrite, show ¬ k < a by omega, show ¬ k = a by omega]
      rw [hw, hnew]
      by_cases hc : c = a
      · simp [hc]
      · simp [hc, show ¬ a = c from fun h => hc h.symm]

theorem risingFrom_mono {low low' : Nat} (h : low' ≤ low) {m : List Host.Cell}
    (hm : risingFrom low m = true) : risingFrom low' m = true := by
  cases m with
  | nil => rfl
  | cons cell rest =>
    simp only [risingFrom, Bool.and_eq_true, decide_eq_true_eq] at hm ⊢
    exact ⟨by omega, hm.2⟩

theorem risingFrom_memWrite {low a : Nat} {b : Byte} {m : List Host.Cell} (ha : low ≤ a)
    (hm : risingFrom low m = true) : risingFrom low (memWrite m a b) = true := by
  induction m generalizing low with
  | nil => simp [memWrite, risingFrom, ha]
  | cons cell rest ih =>
    obtain ⟨k, v⟩ := cell
    simp only [risingFrom, Bool.and_eq_true, decide_eq_true_eq] at hm
    simp only [memWrite]
    split_ifs with h1 h2
    · simp [risingFrom, hm.1, ih (low := k + 1) (by omega) hm.2]
    · subst h2; simp [risingFrom, ha, hm.2]
    · have : a + 1 ≤ k := by omega
      simp [risingFrom, ha, this, hm.2]

theorem all_memWrite {p : Host.Cell → Bool} {a : Nat} {b : Byte} {m : List Host.Cell}
    (hp : p (a, b) = true) (hm : m.all p = true) : (memWrite m a b).all p = true := by
  induction m with
  | nil => simpa [memWrite] using hp
  | cons cell rest ih =>
    obtain ⟨k, v⟩ := cell
    simp only [List.all_cons, Bool.and_eq_true] at hm
    simp only [memWrite]
    split_ifs <;> simp [hp, hm, ih]

/-- Every write to a cell keeps the canonical form. -/
theorem pmemWf_memWrite {a : Nat} {b : Byte} {m : List Host.Cell} (ha : a < Config.pmemDepth)
    (hm : pmemWf m = true) : pmemWf (memWrite m a b) = true := by
  simp only [pmemWf, Bool.and_eq_true] at hm ⊢
  exact ⟨risingFrom_memWrite (Nat.zero_le a) hm.1, all_memWrite (by simpa using ha) hm.2⟩

/-- The memory at reset has the canonical form. -/
theorem pmemWf_reset : pmemWf State.reset.pmem = true := rfl

theorem lookupCell_below {low a : Nat} {m : List Host.Cell} (hm : risingFrom low m = true) (ha : a < low) :
    lookupCell m a = none := by
  induction m generalizing low with
  | nil => rfl
  | cons cell rest ih =>
    obtain ⟨k, v⟩ := cell
    simp only [risingFrom, Bool.and_eq_true, decide_eq_true_eq] at hm
    have hne : k ≠ a := by omega
    simp [lookupCell, hne, ih hm.2 (by omega)]

/-- Canonical memories that read alike at every address are the same list. -/
theorem eq_of_lookupCell_eq {low : Nat} {m n : List Host.Cell} (hm : risingFrom low m = true)
    (hn : risingFrom low n = true) (h : ∀ a, lookupCell m a = lookupCell n a) : m = n := by
  induction m generalizing low n with
  | nil =>
    cases n with
    | nil => rfl
    | cons c rest => have := h c.1; simp [lookupCell] at this
  | cons cell rest ih =>
    obtain ⟨k, v⟩ := cell
    cases n with
    | nil => have := h k; simp [lookupCell] at this
    | cons cell' rest' =>
      obtain ⟨k', v'⟩ := cell'
      simp only [risingFrom, Bool.and_eq_true, decide_eq_true_eq] at hm hn
      have hk : k = k' := by
        rcases Nat.lt_trichotomy k k' with hlt | heq | hlt
        · have := h k
          have hne : k' ≠ k := by omega
          simp [lookupCell, hne, lookupCell_below hn.2 (show k < k' + 1 by omega)] at this
        · exact heq
        · have := h k'
          have hne : k ≠ k' := by omega
          simp [lookupCell, hne, lookupCell_below hm.2 (show k' < k + 1 by omega)] at this
      subst hk
      have hv : v = v' := by simpa [lookupCell] using h k
      subst hv
      congr 1
      refine ih hm.2 hn.2 (fun a => ?_)
      by_cases ha : k = a
      · subst ha
        rw [lookupCell_below hm.2 (by omega), lookupCell_below hn.2 (by omega)]
      · simpa [lookupCell, ha] using h a

end Sys2Proof.Machine
end

