-- ==== Sys2Proof/Laws/State.lean ====
section
/-! SUPPORT. One lemma per field per named update of the state, so that no later proof unfolds a record update. -/

namespace Sys2Proof.Machine

/-! ## `init` (R25) -/

@[simp] theorem initRegs_done (s : State) : (initRegs s).done = false := rfl
@[simp] theorem initRegs_status (s : State) : (initRegs s).status = 0 := rfl
@[simp] theorem initRegs_cnt (s : State) : (initRegs s).cnt = 0 := rfl
@[simp] theorem initRegs_magic (s : State) : (initRegs s).magic = 0 := rfl
@[simp] theorem initRegs_ptype (s : State) : (initRegs s).ptype = 0 := rfl
@[simp] theorem initRegs_plen (s : State) : (initRegs s).plen = 0 := rfl
@[simp] theorem initRegs_xacc (s : State) : (initRegs s).xacc = 0 := rfl
@[simp] theorem initRegs_csb (s : State) : (initRegs s).csb = 0 := rfl
@[simp] theorem initRegs_cmdc (s : State) : (initRegs s).cmdc = 0 := rfl
@[simp] theorem initRegs_pmem (s : State) : (initRegs s).pmem = s.pmem := rfl
@[simp] theorem initRegs_pending (s : State) : (initRegs s).pending = s.pending := rfl

/-! ## XACC <- XACC ^ b (R21) -/

@[simp] theorem foldXacc_done (b : Byte) (s : State) : (foldXacc b s).done = s.done := rfl
@[simp] theorem foldXacc_status (b : Byte) (s : State) : (foldXacc b s).status = s.status := rfl
@[simp] theorem foldXacc_cnt (b : Byte) (s : State) : (foldXacc b s).cnt = s.cnt := rfl
@[simp] theorem foldXacc_magic (b : Byte) (s : State) : (foldXacc b s).magic = s.magic := rfl
@[simp] theorem foldXacc_ptype (b : Byte) (s : State) : (foldXacc b s).ptype = s.ptype := rfl
@[simp] theorem foldXacc_plen (b : Byte) (s : State) : (foldXacc b s).plen = s.plen := rfl
@[simp] theorem foldXacc_xacc (b : Byte) (s : State) : (foldXacc b s).xacc = s.xacc ^^^ b := rfl
@[simp] theorem foldXacc_csb (b : Byte) (s : State) : (foldXacc b s).csb = s.csb := rfl
@[simp] theorem foldXacc_cmdc (b : Byte) (s : State) : (foldXacc b s).cmdc = s.cmdc := rfl
@[simp] theorem foldXacc_pmem (b : Byte) (s : State) : (foldXacc b s).pmem = s.pmem := rfl
@[simp] theorem foldXacc_pending (b : Byte) (s : State) : (foldXacc b s).pending = s.pending := rfl

/-! ## A payload byte (R23, R44) -/

@[simp] theorem storePayload_done (b : Byte) (s : State) : (storePayload b s).done = s.done := rfl
@[simp] theorem storePayload_status (b : Byte) (s : State) : (storePayload b s).status = s.status := rfl
@[simp] theorem storePayload_cnt (b : Byte) (s : State) : (storePayload b s).cnt = s.cnt := rfl
@[simp] theorem storePayload_magic (b : Byte) (s : State) : (storePayload b s).magic = s.magic := rfl
@[simp] theorem storePayload_ptype (b : Byte) (s : State) : (storePayload b s).ptype = s.ptype := rfl
@[simp] theorem storePayload_plen (b : Byte) (s : State) : (storePayload b s).plen = s.plen := rfl
@[simp] theorem storePayload_xacc (b : Byte) (s : State) : (storePayload b s).xacc = s.xacc := rfl
@[simp] theorem storePayload_csb (b : Byte) (s : State) : (storePayload b s).csb = s.csb := rfl
@[simp] theorem storePayload_cmdc (b : Byte) (s : State) : (storePayload b s).cmdc = if s.cnt.toNat = 5 then b else s.cmdc := rfl
@[simp] theorem storePayload_pmem (b : Byte) (s : State) : (storePayload b s).pmem = memWrite s.pmem (payloadCell s) b := rfl
@[simp] theorem storePayload_pending (b : Byte) (s : State) : (storePayload b s).pending = s.pending := rfl

/-! ## `absorb` beside its arm (R104) -/

@[simp] theorem absorb_done (b : Byte) (s : State) : (absorb b s).done = false := rfl
@[simp] theorem absorb_status (b : Byte) (s : State) : (absorb b s).status = (captureByte b s).status := rfl
@[simp] theorem absorb_cnt (b : Byte) (s : State) : (absorb b s).cnt = sat17 (s.cnt.toNat + 1) := rfl
@[simp] theorem absorb_magic (b : Byte) (s : State) : (absorb b s).magic = (captureByte b s).magic := rfl
@[simp] theorem absorb_ptype (b : Byte) (s : State) : (absorb b s).ptype = (captureByte b s).ptype := rfl
@[simp] theorem absorb_plen (b : Byte) (s : State) : (absorb b s).plen = (captureByte b s).plen := rfl
@[simp] theorem absorb_xacc (b : Byte) (s : State) : (absorb b s).xacc = (captureByte b s).xacc := rfl
@[simp] theorem absorb_csb (b : Byte) (s : State) : (absorb b s).csb = (captureByte b s).csb := rfl
@[simp] theorem absorb_cmdc (b : Byte) (s : State) : (absorb b s).cmdc = (captureByte b s).cmdc := rfl
@[simp] theorem absorb_pmem (b : Byte) (s : State) : (absorb b s).pmem = (captureByte b s).pmem := rfl
@[simp] theorem absorb_pending (b : Byte) (s : State) : (absorb b s).pending = (captureByte b s).pending := rfl

/-! ## Recording a verdict (R129) -/

@[simp] theorem recordVerdict_done (c : StatusCode) (s : State) : (recordVerdict c s).done = true := rfl
@[simp] theorem recordVerdict_status (c : StatusCode) (s : State) : (recordVerdict c s).status = c := rfl
@[simp] theorem recordVerdict_cnt (c : StatusCode) (s : State) : (recordVerdict c s).cnt = s.cnt := rfl
@[simp] theorem recordVerdict_magic (c : StatusCode) (s : State) : (recordVerdict c s).magic = s.magic := rfl
@[simp] theorem recordVerdict_ptype (c : StatusCode) (s : State) : (recordVerdict c s).ptype = s.ptype := rfl
@[simp] theorem recordVerdict_plen (c : StatusCode) (s : State) : (recordVerdict c s).plen = s.plen := rfl
@[simp] theorem recordVerdict_xacc (c : StatusCode) (s : State) : (recordVerdict c s).xacc = s.xacc := rfl
@[simp] theorem recordVerdict_csb (c : StatusCode) (s : State) : (recordVerdict c s).csb = s.csb := rfl
@[simp] theorem recordVerdict_cmdc (c : StatusCode) (s : State) : (recordVerdict c s).cmdc = s.cmdc := rfl
@[simp] theorem recordVerdict_pmem (c : StatusCode) (s : State) : (recordVerdict c s).pmem = s.pmem := rfl
@[simp] theorem recordVerdict_pending (c : StatusCode) (s : State) : (recordVerdict c s).pending = s.pending := rfl

/-! ## `finalize` (R105) -/

@[simp] theorem finalize_done (s : State) : (finalize s).done = true := rfl
@[simp] theorem finalize_status (s : State) : (finalize s).status = statusCode (firstFailure s) := rfl
@[simp] theorem finalize_cnt (s : State) : (finalize s).cnt = s.cnt := rfl
@[simp] theorem finalize_magic (s : State) : (finalize s).magic = s.magic := rfl
@[simp] theorem finalize_ptype (s : State) : (finalize s).ptype = s.ptype := rfl
@[simp] theorem finalize_plen (s : State) : (finalize s).plen = s.plen := rfl
@[simp] theorem finalize_xacc (s : State) : (finalize s).xacc = s.xacc := rfl
@[simp] theorem finalize_csb (s : State) : (finalize s).csb = s.csb := rfl
@[simp] theorem finalize_cmdc (s : State) : (finalize s).cmdc = s.cmdc := rfl
@[simp] theorem finalize_pmem (s : State) : (finalize s).pmem = s.pmem := rfl
@[simp] theorem finalize_pending (s : State) : (finalize s).pending = s.pending := rfl

/-! ## Presenting an input -/

@[simp] theorem present_done (xs : List HostInput) (s : State) : (present xs s).done = s.done := rfl
@[simp] theorem present_status (xs : List HostInput) (s : State) : (present xs s).status = s.status := rfl
@[simp] theorem present_cnt (xs : List HostInput) (s : State) : (present xs s).cnt = s.cnt := rfl
@[simp] theorem present_magic (xs : List HostInput) (s : State) : (present xs s).magic = s.magic := rfl
@[simp] theorem present_ptype (xs : List HostInput) (s : State) : (present xs s).ptype = s.ptype := rfl
@[simp] theorem present_plen (xs : List HostInput) (s : State) : (present xs s).plen = s.plen := rfl
@[simp] theorem present_xacc (xs : List HostInput) (s : State) : (present xs s).xacc = s.xacc := rfl
@[simp] theorem present_csb (xs : List HostInput) (s : State) : (present xs s).csb = s.csb := rfl
@[simp] theorem present_cmdc (xs : List HostInput) (s : State) : (present xs s).cmdc = s.cmdc := rfl
@[simp] theorem present_pmem (xs : List HostInput) (s : State) : (present xs s).pmem = s.pmem := rfl
@[simp] theorem present_pending (xs : List HostInput) (s : State) : (present xs s).pending = xs ++ s.pending := rfl

/-! ## `open` (R26) -/

theorem openFrame_of_done {s : State} (h : s.done = true) : openFrame s = initRegs s := by simp [openFrame, h]

theorem openFrame_of_not_done {s : State} (h : s.done = false) : openFrame s = s := by simp [openFrame, h]

@[simp] theorem openFrame_done (s : State) : (openFrame s).done = false := by
  cases h : s.done <;> simp [openFrame, h]

@[simp] theorem openFrame_pmem (s : State) : (openFrame s).pmem = s.pmem := by
  cases h : s.done <;> simp [openFrame, h]

@[simp] theorem openFrame_pending (s : State) : (openFrame s).pending = s.pending := by
  cases h : s.done <;> simp [openFrame, h]

theorem initRegs_initRegs (s : State) : initRegs (initRegs s) = initRegs s := rfl

@[simp] theorem openFrame_initRegs (s : State) : openFrame (initRegs s) = initRegs s := rfl

end Sys2Proof.Machine
end

