-- ==== Sys2Proof/Laws/Ops.lean ====
section
/-! SUPPORT. One spec lemma per shared operation: what `absorb`'s arms write to each register (R104), what `open` and an
edge can do, and how presenting bytes composes. -/

namespace Sys2Proof.Machine

/-- Which arm of `absorb` runs, and what it gives (R104): the eight arms, each with its condition on CNT. -/
theorem captureByte_cases (b : Byte) (s : State) :
    (s.cnt.toNat = 0 ∧ captureByte b s = foldXacc b { s with magic := bigEndian b (lowByte s.magic) }) ∨
    (s.cnt.toNat = 1 ∧ captureByte b s = foldXacc b { s with magic := bigEndian (highByte s.magic) b }) ∨
    (s.cnt.toNat = 2 ∧ captureByte b s = foldXacc b { s with ptype := b }) ∨
    (s.cnt.toNat = 3 ∧ captureByte b s = foldXacc b { s with plen := bigEndian b (lowByte s.plen) }) ∨
    (s.cnt.toNat = 4 ∧ captureByte b s = foldXacc b { s with plen := bigEndian (highByte s.plen) b }) ∨
    ((5 ≤ s.cnt.toNat ∧ s.cnt.toNat < 5 + s.plen.toNat) ∧ captureByte b s = foldXacc b (storePayload b s)) ∨
    ((5 ≤ s.cnt.toNat ∧ s.cnt.toNat = 5 + s.plen.toNat) ∧ captureByte b s = { s with csb := b }) ∨
    ((5 ≤ s.cnt.toNat ∧ 5 + s.plen.toNat < s.cnt.toNat) ∧ captureByte b s = s) := by
  have hlt := cnt_lt_checksumOffset s
  have heq := cnt_eq_checksumOffset s
  unfold captureByte
  split_ifs with h0 h1 h2 h3 h4 h5 h6
  · exact .inl ⟨h0, rfl⟩
  · exact .inr (.inl ⟨h1, rfl⟩)
  · exact .inr (.inr (.inl ⟨h2, rfl⟩))
  · exact .inr (.inr (.inr (.inl ⟨h3, rfl⟩)))
  · exact .inr (.inr (.inr (.inr (.inl ⟨h4, rfl⟩))))
  · rw [hlt] at h5
    exact .inr (.inr (.inr (.inr (.inr (.inl ⟨⟨by omega, h5⟩, rfl⟩)))))
  · rw [heq] at h6
    exact .inr (.inr (.inr (.inr (.inr (.inr (.inl ⟨⟨by omega, h6⟩, rfl⟩))))))
  · rw [hlt] at h5; rw [heq] at h6
    exact .inr (.inr (.inr (.inr (.inr (.inr (.inr ⟨⟨by omega, by omega⟩, rfl⟩))))))

/-- No arm of `absorb` touches what the host presents. -/
@[simp] theorem captureByte_pending (b : Byte) (s : State) : (captureByte b s).pending = s.pending := by
  obtain ⟨-, h⟩ | ⟨-, h⟩ | ⟨-, h⟩ | ⟨-, h⟩ | ⟨-, h⟩ | ⟨-, h⟩ | ⟨-, h⟩ | ⟨-, h⟩ := captureByte_cases b s <;>
    rw [h] <;> rfl

/-- No arm of `absorb` writes STATUS. -/
@[simp] theorem captureByte_status (b : Byte) (s : State) : (captureByte b s).status = s.status := by
  obtain ⟨-, h⟩ | ⟨-, h⟩ | ⟨-, h⟩ | ⟨-, h⟩ | ⟨-, h⟩ | ⟨-, h⟩ | ⟨-, h⟩ | ⟨-, h⟩ := captureByte_cases b s <;>
    rw [h] <;> rfl

/-- PMEM after a byte (R44): one cell written when the byte is payload, else nothing. -/
theorem captureByte_pmem (b : Byte) (s : State) :
    (captureByte b s).pmem =
      if 5 ≤ s.cnt.toNat ∧ s.cnt.toNat < 5 + s.plen.toNat then memWrite s.pmem (s.cnt.toNat - 5) b else s.pmem := by
  obtain ⟨hi, h⟩ | ⟨hi, h⟩ | ⟨hi, h⟩ | ⟨hi, h⟩ | ⟨hi, h⟩ | ⟨hi, h⟩ | ⟨hi, h⟩ | ⟨hi, h⟩ := captureByte_cases b s
  all_goals rw [h]
  case inr.inr.inr.inr.inr.inl => rw [if_pos hi]; rfl
  all_goals (rw [if_neg (by omega)] <;> rfl)

/-! Each register after a byte (R104), by the offset CNT the byte has. -/

theorem captureByte_magic (b : Byte) (s : State) :
    (captureByte b s).magic = if s.cnt.toNat = 0 then bigEndian b (lowByte s.magic)
      else if s.cnt.toNat = 1 then bigEndian (highByte s.magic) b else s.magic := by
  obtain ⟨hi, h⟩ | ⟨hi, h⟩ | ⟨hi, h⟩ | ⟨hi, h⟩ | ⟨hi, h⟩ | ⟨hi, h⟩ | ⟨hi, h⟩ | ⟨hi, h⟩ := captureByte_cases b s
  all_goals rw [h]
  all_goals try simp only [foldXacc_magic, storePayload_magic]
  all_goals (split_ifs <;> first | rfl | omega)

theorem captureByte_ptype (b : Byte) (s : State) :
    (captureByte b s).ptype = if s.cnt.toNat = 2 then b else s.ptype := by
  obtain ⟨hi, h⟩ | ⟨hi, h⟩ | ⟨hi, h⟩ | ⟨hi, h⟩ | ⟨hi, h⟩ | ⟨hi, h⟩ | ⟨hi, h⟩ | ⟨hi, h⟩ := captureByte_cases b s
  all_goals rw [h]
  all_goals try simp only [foldXacc_ptype, storePayload_ptype]
  all_goals (split_ifs <;> first | rfl | omega)

theorem captureByte_plen (b : Byte) (s : State) :
    (captureByte b s).plen = if s.cnt.toNat = 3 then bigEndian b (lowByte s.plen)
      else if s.cnt.toNat = 4 then bigEndian (highByte s.plen) b else s.plen := by
  obtain ⟨hi, h⟩ | ⟨hi, h⟩ | ⟨hi, h⟩ | ⟨hi, h⟩ | ⟨hi, h⟩ | ⟨hi, h⟩ | ⟨hi, h⟩ | ⟨hi, h⟩ := captureByte_cases b s
  all_goals rw [h]
  all_goals try simp only [foldXacc_plen, storePayload_plen]
  all_goals (split_ifs <;> first | rfl | omega)

theorem captureByte_xacc (b : Byte) (s : State) :
    (captureByte b s).xacc = if s.cnt.toNat < 5 + s.plen.toNat then s.xacc ^^^ b else s.xacc := by
  obtain ⟨hi, h⟩ | ⟨hi, h⟩ | ⟨hi, h⟩ | ⟨hi, h⟩ | ⟨hi, h⟩ | ⟨hi, h⟩ | ⟨hi, h⟩ | ⟨hi, h⟩ := captureByte_cases b s
  all_goals rw [h]
  all_goals try simp only [foldXacc_xacc, storePayload_xacc]
  all_goals (split_ifs <;> first | rfl | omega)

theorem captureByte_csb (b : Byte) (s : State) :
    (captureByte b s).csb = if 5 ≤ s.cnt.toNat ∧ s.cnt.toNat = 5 + s.plen.toNat then b else s.csb := by
  obtain ⟨hi, h⟩ | ⟨hi, h⟩ | ⟨hi, h⟩ | ⟨hi, h⟩ | ⟨hi, h⟩ | ⟨hi, h⟩ | ⟨hi, h⟩ | ⟨hi, h⟩ := captureByte_cases b s
  all_goals rw [h]
  all_goals try simp only [foldXacc_csb, storePayload_csb]
  all_goals (split_ifs <;> first | rfl | omega)

theorem captureByte_cmdc (b : Byte) (s : State) :
    (captureByte b s).cmdc = if s.cnt.toNat = 5 ∧ 5 < 5 + s.plen.toNat then b else s.cmdc := by
  obtain ⟨hi, h⟩ | ⟨hi, h⟩ | ⟨hi, h⟩ | ⟨hi, h⟩ | ⟨hi, h⟩ | ⟨hi, h⟩ | ⟨hi, h⟩ | ⟨hi, h⟩ := captureByte_cases b s
  all_goals rw [h]
  all_goals try simp only [foldXacc_cmdc, storePayload_cmdc]
  all_goals (split_ifs <;> first | rfl | omega)

/-- The cell a byte writes is one no rule reserves: below 65535 (R24, R44). -/
theorem payloadCell_lt {s : State} (h : s.cnt.toNat < 5 + s.plen.toNat) : s.cnt.toNat - 5 < 65535 := by
  have := s.plen.isLt
  omega

/-! ## The edges of a frame -/

theorem byteEdge_of_not_done {s : State} (b : Byte) (h : s.done = false) : byteEdge b s = absorb b s := by
  simp [byteEdge, openFrame_of_not_done h]

theorem byteEdge_of_done {s : State} (b : Byte) (h : s.done = true) : byteEdge b s = absorb b (initRegs s) := by
  simp [byteEdge, openFrame_of_done h]

@[simp] theorem byteEdge_done (b : Byte) (s : State) : (byteEdge b s).done = false := rfl

@[simp] theorem byteEdge_pending (b : Byte) (s : State) : (byteEdge b s).pending = s.pending := by
  simp [byteEdge]

@[simp] theorem endEdge_done (s : State) : (endEdge s).done = true := rfl

@[simp] theorem endEdge_pending (s : State) : (endEdge s).pending = s.pending := by simp [endEdge]

@[simp] theorem endEdge_pmem (s : State) : (endEdge s).pmem = s.pmem := by simp [endEdge]

theorem presentBytes_append (bs cs : List Byte) (s : State) :
    presentBytes (bs ++ cs) s = presentBytes cs (presentBytes bs s) := by
  induction bs generalizing s with
  | nil => rfl
  | cons b rest ih => simp [presentBytes, ih]

@[simp] theorem presentBytes_pending (bs : List Byte) (s : State) : (presentBytes bs s).pending = s.pending := by
  induction bs generalizing s with
  | nil => rfl
  | cons b rest ih => simp [presentBytes, ih]

@[simp] theorem presentFrame_pending (bs : List Byte) (s : State) : (presentFrame bs s).pending = s.pending := by
  simp [presentFrame]

@[simp] theorem presentFrame_done (bs : List Byte) (s : State) : (presentFrame bs s).done = true := rfl

/-- The first edge of a frame leaves the host the edges of the rest of its buffer to present. -/
theorem beginFrame_cons (b : Byte) (rest : List Byte) (s : State) :
    beginFrame (b :: rest) s = byteEdge b { s with pending := frameEdges rest ++ s.pending } := rfl

theorem frameEdges_cons (b : Byte) (rest : List Byte) :
    frameEdges (b :: rest) = .edge false (commandWord 1 b) :: frameEdges rest := rfl

/-- Once a frame is open, its bytes are absorbed one after another. -/
theorem presentBytes_concat (bs : List Byte) (b : Byte) (s : State) :
    presentBytes (bs ++ [b]) s = byteEdge b (presentBytes bs s) := by
  rw [presentBytes_append]; rfl

/-! ## Memory is kept well formed -/

theorem byteEdge_pmemWf (b : Byte) {s : State} (h : pmemWf s.pmem = true) : pmemWf (byteEdge b s).pmem = true := by
  simp only [byteEdge, absorb_pmem, captureByte_pmem, openFrame_pmem]
  split_ifs with hi
  · have := payloadCell_lt hi.2
    exact pmemWf_memWrite (by simp only [Config.pmemDepth]; omega) h
  · exact h

theorem presentBytes_pmemWf (bs : List Byte) {s : State} (h : pmemWf s.pmem = true) :
    pmemWf (presentBytes bs s).pmem = true := by
  induction bs generalizing s with
  | nil => exact h
  | cons b rest ih => exact ih (byteEdge_pmemWf b h)

theorem presentFrame_pmemWf (bs : List Byte) {s : State} (h : pmemWf s.pmem = true) :
    pmemWf (presentFrame bs s).pmem = true := by
  simpa [presentFrame] using presentBytes_pmemWf bs h

end Sys2Proof.Machine
end

