-- ==== Sys2Proof/Laws/PerInstr.lean ====
section
/-! SUPPORT. Per-instruction laws: the encoding of every instruction matches its row of spec/opcode_table.json (R62). -/

namespace Sys2Proof.Laws.RowMatch

/-- The encoded form matches a row of format CW: `match` under the mask 0x300 over the 10-bit word. -/
def MatchesWordRow (c : Code) (value : Nat) : Prop :=
  ∃ cw, c = .word cw ∧ cw.toNat / 256 * 256 = value

/-- The encoded form matches a row of format FRAME: `match` under the mask 0xFFFFFF over the 24-bit big-endian number
made of the first three bytes. -/
def MatchesFrameRow (c : Code) (value : Nat) : Prop :=
  ∃ b0 b1 b2 rest, c = .buffer (b0 :: b1 :: b2 :: rest) ∧ b0.toNat * 65536 + b1.toNat * 256 + b2.toNat = value

/-- The encoding of an instruction matches the row its mnemonic names. -/
def Statement (i : Instr) : Prop :=
  match i with
  | .nop _ => MatchesWordRow (encode i) 0x000
  | .byte _ => MatchesWordRow (encode i) 0x100
  | .endOp _ => MatchesWordRow (encode i) 0x200
  | .clr _ => MatchesWordRow (encode i) 0x300
  | .data _ => MatchesFrameRow (encode i) 0xCAFE01
  | .cmd _ => MatchesFrameRow (encode i) 0xCAFE02
  | .ack _ => MatchesFrameRow (encode i) 0xCAFE03

/-- The word made of `op` and `din` lies in the row of that `op`. -/
theorem matches_commandWord (op : BitVec 2) (din : Byte) :
    MatchesWordRow (.word (commandWord op din)) (op.toNat * 256) := by
  refine ⟨_, rfl, ?_⟩
  have := din.isLt
  rw [commandWord_toNat]; omega

theorem nop (din : Byte) : Statement (.nop din) := matches_commandWord 0 din

theorem byte (din : Byte) : Statement (.byte din) := matches_commandWord 1 din

theorem endOp (din : Byte) : Statement (.endOp din) := matches_commandWord 2 din

theorem clr (din : Byte) : Statement (.clr din) := matches_commandWord 3 din

theorem data (tail : FrameTail) : Statement (.data tail) := ⟨_, _, _, _, rfl, by decide⟩

theorem cmd (tail : FrameTail) : Statement (.cmd tail) := ⟨_, _, _, _, rfl, by decide⟩

theorem ack (tail : FrameTail) : Statement (.ack tail) := ⟨_, _, _, _, rfl, by decide⟩

end Sys2Proof.Laws.RowMatch
end

