-- ==== Sys2Proof/Laws/Step.lean ====
section
/-! SUPPORT. What a step can do, said once: one edge (R101) and its effect, and what a run of edges comes to. -/

namespace Sys2Proof.Machine

/-- What an instruction does, as an operation on the state. -/
def effect : Instr → State → State
  | .nop _, s => s
  | .byte din, s => byteEdge din s
  | .endOp _, s => endEdge s
  | .clr _, s => initRegs s
  | .data tail, s => beginFrame (frameBytes Config.typeData tail) s
  | .cmd tail, s => beginFrame (frameBytes Config.typeCmd tail) s
  | .ack tail, s => beginFrame (frameBytes Config.typeAck tail) s

/-- Every instruction gives a next state, the one its effect names. -/
theorem exec_eq_effect (i : Instr) (s : State) : exec i s = .next (effect i s) := by cases i <;> rfl

/-- `rst` = 1 hides the command word (R101). -/
@[simp] theorem sample_reset (w : CommandWord) : sample (.edge true w) = .resetEdge := rfl

/-- With `rst` = 0 the command word is decoded (R101). -/
@[simp] theorem sample_word (w : CommandWord) : sample (.edge false w) = .instr (decodeWord w) := rfl

/-- What one edge does, as an operation on the state. -/
def inputEffect (x : HostInput) (s : State) : State :=
  match sample x with
  | .resetEdge => initRegs s
  | .instr i => effect i s

/-- With nothing presented, a step changes nothing. -/
theorem step_of_empty {s : State} (h : s.pending = []) : step s = .next s := by
  simp [step, takeInput, h]

/-- With an edge presented, a step is that edge's effect on the state without it. -/
theorem step_of_pending {s : State} {x : HostInput} {rest : List HostInput} (h : s.pending = x :: rest) :
    step s = .next (inputEffect x { s with pending := rest }) := by
  simp only [step, takeInput, h, inputEffect]
  cases sample x <;> simp [exec_eq_effect]

/-- A step that gives `t` did one of these two things. -/
theorem step_cases {s t : State} (h : step s = .next t) :
    (s.pending = [] ∧ t = s) ∨
    (∃ x rest, s.pending = x :: rest ∧ t = inputEffect x { s with pending := rest }) := by
  cases hp : s.pending with
  | nil =>
    rw [step_of_empty hp] at h
    exact .inl ⟨rfl, by injection h with h; exact h.symm⟩
  | cons x rest =>
    rw [step_of_pending hp] at h
    exact .inr ⟨x, rest, rfl, by injection h with h; exact h.symm⟩

/-! ## Runs -/

/-- A run whose first step gives `t` goes on from `t`. -/
theorem run_succ {s t : State} (n : Nat) (h : step s = .next t) :
    Host.Core.run Sys2Proof.core (n + 1) s = Host.Core.run Sys2Proof.core n t := by
  have hc : Sys2Proof.core.step s = .next t := h
  simp only [Host.Core.run, hc]

/-- The effects of a list of inputs, in order. -/
def inputsEffect : List HostInput → State → State
  | [], s => s
  | x :: xs, s => inputsEffect xs (inputEffect x s)

theorem inputsEffect_append (xs ys : List HostInput) (s : State) :
    inputsEffect (xs ++ ys) s = inputsEffect ys (inputsEffect xs s) := by
  induction xs generalizing s with
  | nil => rfl
  | cons x xs ih => exact ih _

/-- The edge of a BYTE word is the edge of its byte. -/
theorem inputEffect_byteWord (b : Byte) (s : State) :
    inputEffect (.edge false (commandWord 1 b)) s = byteEdge b s := by
  simp [inputEffect, decodeWord, effect]

/-- The edge of an END word, whatever its `din`. -/
theorem inputEffect_endWord (d : Byte) (s : State) :
    inputEffect (.edge false (commandWord 2 d)) s = endEdge s := by
  simp [inputEffect, decodeWord, effect]

theorem inputsEffect_byteWords (bs : List Byte) (s : State) :
    inputsEffect ((bs.map (commandWord 1)).map (HostInput.edge false)) s = presentBytes bs s := by
  induction bs generalizing s with
  | nil => rfl
  | cons b bs ih => exact (congrArg _ (inputEffect_byteWord b s)).trans (ih _)

/-- The edges of a frame, taken together, are its buffer presented whole (R70). -/
theorem inputsEffect_frameEdges (data : List Byte) (s : State) :
    inputsEffect (frameEdges data) s = presentFrame data s := by
  simp only [frameEdges, frameWords, List.map_append, inputsEffect_append, inputsEffect_byteWords]
  exact inputEffect_endWord 0 _

/-- The state with other inputs to come. -/
def withPending (rest : List HostInput) (s : State) : State := { s with pending := rest }

theorem captureByte_withPending (b : Byte) (rest : List HostInput) (s : State) :
    captureByte b (withPending rest s) = withPending rest (captureByte b s) := by
  simp only [captureByte, apply_ite (withPending rest)]
  rfl

theorem openFrame_withPending (rest : List HostInput) (s : State) :
    openFrame (withPending rest s) = withPending rest (openFrame s) := by
  simp only [openFrame, apply_ite (withPending rest)]
  rfl

theorem byteEdge_withPending (b : Byte) (rest : List HostInput) (s : State) :
    byteEdge b (withPending rest s) = withPending rest (byteEdge b s) := by
  simp only [byteEdge, absorb, openFrame_withPending, captureByte_withPending]
  rfl

theorem endEdge_withPending (rest : List HostInput) (s : State) :
    endEdge (withPending rest s) = withPending rest (endEdge s) := by
  simp only [endEdge, openFrame_withPending]
  rfl

theorem presentBytes_withPending (data : List Byte) (rest : List HostInput) (s : State) :
    presentBytes data (withPending rest s) = withPending rest (presentBytes data s) := by
  induction data generalizing s with
  | nil => rfl
  | cons b bs ih => simp only [presentBytes, byteEdge_withPending, ih]

theorem presentFrame_withPending (data : List Byte) (rest : List HostInput) (s : State) :
    presentFrame data (withPending rest s) = withPending rest (presentFrame data s) := by
  simp only [presentFrame, presentBytes_withPending, endEdge_withPending]

/-- A command word is one of the four port operations (R55). -/
theorem decodeWord_cases (w : CommandWord) :
    decodeWord w = .nop (dinField w) ∨ decodeWord w = .byte (dinField w) ∨ decodeWord w = .endOp (dinField w) ∨
      decodeWord w = .clr (dinField w) := by
  unfold decodeWord
  split_ifs <;> simp

/-- What an edge does: `init`, nothing, a byte, or a verdict (R101). -/
theorem inputEffect_cases (x : HostInput) :
    inputEffect x = initRegs ∨ inputEffect x = id ∨ (∃ b, inputEffect x = byteEdge b) ∨ inputEffect x = endEdge := by
  obtain ⟨rst, w⟩ := x
  cases rst
  · obtain h | h | h | h := decodeWord_cases w
    · exact .inr (.inl (funext fun s => by simp [inputEffect, h, effect]))
    · exact .inr (.inr (.inl ⟨_, funext fun s => by simp [inputEffect, h, effect]; rfl⟩))
    · exact .inr (.inr (.inr (funext fun s => by simp [inputEffect, h, effect])))
    · exact .inl (funext fun s => by simp [inputEffect, h, effect])
  · exact .inl (funext fun s => by simp [inputEffect])

/-- An edge's effect does not look at what is presented after it. -/
theorem inputEffect_withPending (x : HostInput) (rest : List HostInput) (s : State) :
    inputEffect x (withPending rest s) = withPending rest (inputEffect x s) := by
  obtain h | h | ⟨b, h⟩ | h := inputEffect_cases x <;> rw [h]
  · rfl
  · rfl
  · exact byteEdge_withPending b rest s
  · exact endEdge_withPending rest s

/-- A run over a list of inputs is their effects in order, whatever is presented after them. -/
theorem run_inputs (xs rest : List HostInput) (s : State) :
    Host.Core.run Sys2Proof.core xs.length { s with pending := xs ++ rest } =
      .next { inputsEffect xs s with pending := rest } := by
  induction xs generalizing s with
  | nil => rfl
  | cons x xs ih =>
    have h : step { s with pending := x :: xs ++ rest } = .next { inputEffect x s with pending := xs ++ rest } := by
      rw [step_of_pending (x := x) (rest := xs ++ rest) rfl]
      exact congrArg Host.Outcome.next (inputEffect_withPending x (xs ++ rest) s)
    rw [List.length_cons, run_succ _ h, ih]
    rfl

/-! ## Frames -/

@[simp] theorem frameEdges_length (data : List Byte) : (frameEdges data).length = data.length + 1 := by
  simp [frameEdges, frameWords]

/-- A frame begins with the step that its edges, presented next, make. -/
theorem step_frameEdges (data : List Byte) (rest : List HostInput) (s : State) :
    step { s with pending := frameEdges data ++ rest } = .next (beginFrame data { s with pending := rest }) := by
  cases data with
  | nil =>
    rw [step_of_pending (x := .edge false (commandWord 2 0)) (rest := rest) rfl]
    exact congrArg _ (inputEffect_endWord 0 _)
  | cons b bs =>
    rw [step_of_pending (x := .edge false (commandWord 1 b)) (rest := frameEdges bs ++ rest) rfl]
    exact congrArg _ (inputEffect_byteWord b _)

/-- Once a frame has begun, as many more steps as its buffer has bytes bring it to its verdict. -/
theorem run_beginFrame (data : List Byte) (s : State) :
    Host.Core.run Sys2Proof.core data.length (beginFrame data s) = .next (presentFrame data s) := by
  have h := run_inputs (frameEdges data) s.pending s
  rw [frameEdges_length, run_succ _ (step_frameEdges data s.pending s), inputsEffect_frameEdges] at h
  exact h.trans (congrArg Host.Outcome.next (presentFrame_withPending data s.pending s).symm)

end Sys2Proof.Machine
end

