-- ==== Sys2Proof/Tests/Slice0.lean ====
section
/-! SUPPORT. The model's own tests: ill-formed terms, words written out from the encoding tables, one step per
instruction with the values of spec/95_test_vectors.md, and for each statement with hypotheses a case that meets
them. -/

namespace Sys2Proof.Tests

open Sys2Proof Sys2Proof.Machine Sys2Proof.Safety

/-- The state an outcome goes on in, if it does. -/
def nextOf : Host.Outcome State Fault Refusal → Option State
  | .next s => some s
  | .fault _ => none
  | .refused _ => none

/-- A state by its nine registers, in the order of the spec's tables, with PMEM. -/
def stateOf (done : Bool) (status : StatusCode) (cnt : Count) (magic : Half) (ptype : Byte) (plen : Half)
    (xacc csb cmdc : Byte) (pmem : List Host.Cell) : State :=
  ⟨done, status, cnt, magic, ptype, plen, xacc, csb, cmdc, pmem, []⟩

/-- The state with these inputs to come. -/
def feed (s : State) (xs : List HostInput) : State := { s with pending := xs }

/-- The state after the whole run of a frame type's edges, for the verdict its END records. -/
def atVerdict (tail : FrameTail) (ty : Byte) : State := presentFrame (frameBytes ty tail) State.reset

/-- The state after the END of vector V22: a CMD Packet with command code 7F. -/
def afterV22 : State := stateOf true 0 7 0xCAFE 0x02 1 0x48 0x48 0x7F [(0, 0x7F)]

/-- The state of vector V34 after edge 5: the header of a CMD frame with two payload bytes. -/
def midV34 : State := stateOf false 0 5 0xCAFE 0x02 2 0x34 0 0 []

/-! ## Well-formedness: an ill-formed term for each check (R57) -/

/-- Two bytes are a whole length field, so this shape does not fit them. -/
theorem test_wellFormed_refuses_noLength : (Instr.data (.noLength [0, 0])).wellFormed = false := by decide
/-- More payload than the declared length reaches past the checksum position. -/
theorem test_wellFormed_refuses_cutShort : (Instr.cmd (.cutShort 1 [7, 8])).wellFormed = false := by decide
/-- The payload must be as long as declared. -/
theorem test_wellFormed_refuses_complete : (Instr.ack (.complete 2 [7] 0 [])).wellFormed = false := by decide
theorem test_wellFormed_accepts : (Instr.ack (.complete 1 [7] 0 [9])).wellFormed = true := by decide

/-! ## Decoding: words from the spec's programs and vectors -/

/-- V33 edge 1: op 00, din 10101011. -/
theorem test_decode_nop : decode (.word 0b0010101011) = .ok (.nop 0xAB) := by decide
/-- V33 edge 2: op 01, din 11001010. -/
theorem test_decode_byte : decode (.word 0b0111001010) = .ok (.byte 0xCA) := by decide
/-- V33 edge 6: op 10, din 11111111. -/
theorem test_decode_end : decode (.word 0b1011111111) = .ok (.endOp 0xFF) := by decide
/-- V33 edge 8: op 11, din 10100101. -/
theorem test_decode_clr : decode (.word 0b1110100101) = .ok (.clr 0xA5) := by decide
/-- V27: DATA, empty payload, checksum 35, two trailing bytes. -/
theorem test_decode_data :
    decode (.buffer [0xCA, 0xFE, 0x01, 0, 0, 0x35, 0xFF, 0xFF]) = .ok (.data (.complete 0 [] 0x35 [0xFF, 0xFF])) := by
  decide
/-- V29: CMD with the payload 10 20. -/
theorem test_decode_cmd :
    decode (.buffer [0xCA, 0xFE, 0x02, 0, 2, 0x10, 0x20, 0x04]) = .ok (.cmd (.complete 2 [0x10, 0x20] 0x04 [])) := by
  decide
/-- The length field is big-endian (R60): 01 00 declares 256 bytes, and this ACK buffer brings one. -/
theorem test_decode_ack :
    decode (.buffer [0xCA, 0xFE, 0x03, 1, 0, 7]) = .ok (.ack (.cutShort 256 [7])) := by decide
/-- S2: the buffer ends after the type byte. -/
theorem test_decode_noLength : decode (.buffer [0xCA, 0xFE, 0x01]) = .ok (.data (.noLength [])) := by decide
/-- V6, V9 and V2: what no row matches is rejected by name. -/
theorem test_decode_rejects :
    decode (.buffer [0xFE, 0xCA, 1, 0, 0]) = .error (.notMagic 0xFECA) ∧
    decode (.buffer [0xCA, 0xFE, 4, 0, 0]) = .error (.unknownType 4) ∧
    decode (.buffer [0xCA]) = .error (.noTypeByte 1) := by decide
theorem test_encode_byte : encode (.byte 0xCA) = .word 0x1CA := by decide
/-- The three frame rows of the table: mask and value over 24 bits (R62). -/
theorem test_tableWord_rows :
    decodeTableWord 24 0xCAFE01 = some (.data (.complete 0 [] 0 [])) ∧
    decodeTableWord 24 0xCAFE02 = some (.cmd (.complete 0 [] 0 [])) ∧
    decodeTableWord 24 0xCAFE03 = some (.ack (.complete 0 [] 0 [])) ∧ decodeTableWord 24 0xCAFE00 = none := by decide
/-- A command word has ten bits; a seventeenth value of the padding is none. -/
theorem test_tableWord_padding :
    decodeTableWord 16 0x3A5 = some (.clr 0xA5) ∧ decodeTableWord 16 0x400 = none := by decide

/-! ## One step per instruction -/

/-- V33 edge 3: NOP with `din` FF inside a frame. -/
theorem test_nop : nextOf (exec (.nop 0xFF) (stateOf false 0 1 0xCA00 0 0 0xCA 0 0 [])) =
    some (stateOf false 0 1 0xCA00 0 0 0xCA 0 0 []) := by decide
/-- V34 edge 6: the first payload byte goes to PMEM[0] and to CMDC. -/
theorem test_byte_payload : nextOf (exec (.byte 0x10) midV34) =
    some (stateOf false 0 6 0xCAFE 0x02 2 0x24 0 0x10 [(0, 0x10)]) := by decide
/-- V36: a BYTE after a verdict drops it; PMEM[0] is still 7F. -/
theorem test_byte_after_verdict : nextOf (exec (.byte 0x11) afterV22) =
    some (stateOf false 0 1 0x1100 0 0 0x11 0 0 [(0, 0x7F)]) := by decide
/-- V34 edge 10: the verdict OK, with one trailing byte counted. -/
theorem test_end_ok :
    nextOf (exec (.endOp 0) (stateOf false 0 9 0xCAFE 2 2 0x04 0x04 0x10 [(0, 0x10), (1, 0x20)])) =
      some (stateOf true 0 9 0xCAFE 2 2 0x04 0x04 0x10 [(0, 0x10), (1, 0x20)]) := by decide
/-- V35 edge 11: END after a verdict is the verdict of the empty buffer. -/
theorem test_end_twice : nextOf (exec (.endOp 0) (stateOf true 0 9 0xCAFE 2 2 0x04 0x04 0x10 [(0, 0x10)])) =
    some (stateOf true 1 0 0 0 0 0 0 0 [(0, 0x10)]) := by decide
/-- V37: CLR inside a frame. -/
theorem test_clr : nextOf (exec (.clr 0) (stateOf false 0 3 0xCAFE 1 0 0x35 0 0 [])) = some State.reset := by decide
/-- V50: a reset edge after a verdict; PMEM[0] is still 7F. -/
theorem test_reset_edge : nextOf (step (feed afterV22 [.edge true 0x155])) =
    some (stateOf false 0 0 0 0 0 0 0 0 [(0, 0x7F)]) := by decide
/-- V16: DATA with the checksum wrong in bit 7; its payload is stored all the same. -/
theorem test_data_mismatch : atVerdict (.complete 3 [1, 2, 3] 0xB6 []) Config.typeData =
    stateOf true 5 9 0xCAFE 1 3 0x36 0xB6 1 [(0, 1), (1, 2), (2, 3)] := by decide
/-- S1, the packet "Hello Fuzzing!": its first edge (P1), after which the host presents the other 20 words. -/
theorem test_data_first_edge :
    nextOf (exec (.data (.complete 14
      [0x48, 0x65, 0x6C, 0x6C, 0x6F, 0x20, 0x46, 0x75, 0x7A, 0x7A, 0x69, 0x6E, 0x67, 0x21] 0x2B [])) State.reset) =
      some (feed (stateOf false 0 1 0xCA00 0 0 0xCA 0 0 [])
        ([0x1FE, 0x101, 0x100, 0x10E, 0x148, 0x165, 0x16C, 0x16C, 0x16F, 0x120, 0x146, 0x175, 0x17A, 0x17A, 0x169, 0x16E,
          0x167, 0x121, 0x12B, 0x200].map (HostInput.edge false))) := by decide +kernel
/-- V29: CMD; the command code is the first payload byte. -/
theorem test_cmd : atVerdict (.complete 2 [0x10, 0x20] 0x04 []) Config.typeCmd =
    stateOf true 0 8 0xCAFE 2 2 0x04 0x04 0x10 [(0, 0x10), (1, 0x20)] := by decide
/-- V17 (S3): CMD with length 0 and the right checksum. -/
theorem test_cmd_empty : atVerdict (.complete 0 [] 0x36 []) Config.typeCmd =
    stateOf true 6 6 0xCAFE 2 0 0x36 0x36 0 [] := by decide
/-- V24: ACK with the payload A5 5A. -/
theorem test_ack : atVerdict (.complete 2 [0xA5, 0x5A] 0xCA []) Config.typeAck =
    stateOf true 0 8 0xCAFE 3 2 0xCA 0xCA 0xA5 [(0, 0xA5), (1, 0x5A)] := by decide
/-- The step on the table's word of ACK is one edge, the BYTE of CA; then come FE 03, the zeros and END. -/
theorem test_ack_table_word : nextOf (step (State.reset.withFetchWord 24 0xCAFE03)) =
    some (feed (stateOf false 0 1 0xCA00 0 0 0xCA 0 0 [])
      ([0x1FE, 0x103, 0x100, 0x100, 0x100, 0x200].map (HostInput.edge false))) := by decide
/-- V42: capture does not wait for the verdict; a buffer with the wrong magic stores its payload. -/
theorem test_other_buffer : presentFrame [0, 0, 1, 0, 2, 0xAA, 0xBB, 0x11] State.reset =
    stateOf true 2 8 0 1 2 0x12 0x11 0xAA [(0, 0xAA), (1, 0xBB)] := by decide
/-- V41: CNT saturates. -/
theorem test_count_saturates : nextOf (exec (.byte 0) (stateOf false 0 131071 0 0 0 0 0 0 [])) =
    some (stateOf false 0 131071 0 0 0 0 0 0 []) := by decide

/-! ## The reference function and the ports -/

/-- V14: `expected` needs 17 bits. -/
theorem test_decode_expected_exact :
    refDecode [0xCA, 0xFE, 0x01, 0xFF, 0xFF] = .error (.insufficientBody 65541 5) := by decide
/-- V13: the payload is cut short. -/
theorem test_decode_cut_short :
    refDecode [0xCA, 0xFE, 0x01, 0, 4, 0xAA, 0xBB] = .error (.insufficientBody 10 7) := by decide
/-- V11: an unknown type outranks a missing body. -/
theorem test_decode_priority : refDecode [0xCA, 0xFE, 0x09, 0xFF, 0xFF] = .error (.unknownType 0x09) := by decide
/-- V22: the shortest CMD Packet, as the document's function gives it. -/
theorem test_decode_packet :
    refDecode [0xCA, 0xFE, 0x02, 0, 1, 0x7F, 0x48] = .packet ⟨0xCAFE, 2, 1, [0x7F], 0x48, some 0x7F⟩ := by decide
/-- V22 on the ports: the read port shows the payload, `cmd_valid` is 1, and the result is the same Packet. -/
theorem test_ports_of_packet :
    outPorts afterV22 0 = ⟨true, 0, false, 7, 0xCAFE, 2, 1, 7, 0x48, 0x48, 0x7F, true, 0x7F⟩ ∧
    result afterV22 = some (.packet ⟨0xCAFE, 2, 1, [0x7F], 0x48, some 0x7F⟩) := by decide

/-! ## Cases that meet the hypotheses of the statements -/

theorem witness_StepRunsTheDecodedInstruction :
    (feed afterV22 [.edge false 0x1CA]).pending = inputsOf (.word 0x1CA) ++ [] ∧
    decode (.word 0x1CA) = .ok (.byte 0xCA) ∧
    (feed afterV22 [.edge false 0x1CA, .edge false 0x1FE, .edge false 0x103, .edge false 0x200]).pending =
      inputsOf (.buffer [0xCA, 0xFE, 0x03]) ++ [] ∧
    decode (.buffer [0xCA, 0xFE, 0x03]) = .ok (.ack (.noLength [])) := by decide

theorem witness_NothingPresentedChangesNothing : afterV22.pending = [] := by decide

/-- Both ends of each of the four ranges. -/
theorem witness_CommandWordsDecodeByTheirOp :
    (0x0FF#10).toNat ≤ 0x0FF ∧ (0x100 ≤ (0x100#10).toNat ∧ (0x1FF#10).toNat ≤ 0x1FF) ∧
    (0x200 ≤ (0x200#10).toNat ∧ (0x2FF#10).toNat ≤ 0x2FF) ∧
    (0x300 ≤ (0x300#10).toNat ∧ (0x3FF#10).toNat ≤ 0x3FF) := by decide

/-- Each constructor, and each shape at its longest. -/
theorem witness_DecodeOfEncodeIsTheInstruction :
    (Instr.nop 0xAB).wellFormed = true ∧ (Instr.byte 0xCA).wellFormed = true ∧ (Instr.endOp 0xFF).wellFormed = true ∧
    (Instr.clr 0).wellFormed = true ∧ (Instr.data (.noLength [0xFF])).wellFormed = true ∧
    (Instr.cmd (.cutShort 2 [1, 2])).wellFormed = true ∧ (Instr.ack (.complete 1 [7] 0 [9, 9])).wellFormed = true := by
  decide

theorem witness_EncodeOfDecodeIsTheCode :
    decode (.buffer [0xCA, 0xFE, 0x02, 0, 2, 7, 8]) = .ok (.cmd (.cutShort 2 [7, 8])) ∧
    decode (.word 0x2FF) = .ok (.endOp 0xFF) := by decide

theorem witness_BufferDecodesExactlyWhenARowMatches :
    decodeBuffer [0xCA, 0xFE, 0x03, 0] = .ok (.ack (.noLength [0])) ∧
    (FrameTail.noLength [0]).wellFormed = true := by decide

theorem witness_OtherBuffersAreRejectedByName :
    decodeBuffer [0xCA, 0xFE] = .error (.noTypeByte 2) ∧ decodeBuffer [0xCA, 0xFF, 1] = .error (.notMagic 0xCAFF) ∧
    decodeBuffer [0xCA, 0xFE, 0] = .error (.unknownType 0) ∧
    decodeBuffer [0xCA, 0xFE, 0xFF] = .error (.unknownType 0xFF) := by decide

theorem witness_TableWordRunsAtTheNextStep :
    decodeTableWord 24 0xCAFE02 = some (.cmd (.complete 0 [] 0 [])) ∧ decodeTableWord 10 0x1CA = some (.byte 0xCA) := by
  decide

theorem witness_NopChangesNothing :
    (feed afterV22 [.edge false 0x0FF, .edge true 0]).pending = .edge false 0x0FF :: [.edge true 0] ∧
    (0x0FF#10).toNat ≤ 0x0FF := by decide

/-- DONE = 0 at every arm of `absorb` and at the values where they meet, with PLEN = 0, 1, 2 and 65535. -/
def armStates : List State :=
  [stateOf false 0 0 0 0 0 0 0 0 [], stateOf false 0 1 0xCA00 0 0 0xCA 0 0 [],
   stateOf false 0 2 0xCAFE 0 0 0x34 0 0 [], stateOf false 0 3 0xCAFE 2 0 0x36 0 0 [],
   stateOf false 0 4 0xCAFE 2 0 0x36 0 0 [], stateOf false 0 5 0xCAFE 2 0 0x36 0 0 [],
   stateOf false 0 5 0xCAFE 2 1 0x37 0 0 [], midV34, stateOf false 0 6 0xCAFE 2 2 0x24 0 0x10 [(0, 0x10)],
   stateOf false 0 7 0xCAFE 2 2 4 0 0x10 [], stateOf false 0 8 0xCAFE 2 2 4 4 0x10 [],
   stateOf false 0 65539 0xCAFE 1 0xFFFF 0x35 0 0 [], stateOf false 0 65540 0xCAFE 1 0xFFFF 0x35 0 0 [],
   stateOf false 0 131071 0 0 0 0 0 0 []]

theorem witness_ByteIsCapturedByItsOffset : armStates.all (fun s => s.done == false) = true := by decide

/-- Which arm each of those states takes: 0 to 4 for the header, 5 payload, 6 checksum, 7 trailing. -/
theorem witness_ByteIsCapturedByItsOffset_arms :
    armStates.map (fun s =>
      if s.cnt.toNat < 5 then s.cnt.toNat
      else if s.cnt.toNat < 5 + s.plen.toNat then 5 else if s.cnt.toNat = 5 + s.plen.toNat then 6 else 7) =
      [0, 1, 2, 3, 4, 6, 5, 5, 5, 6, 7, 5, 6, 7] := by decide

theorem witness_ByteAfterAVerdictStartsANewFrame : afterV22.done = true := by decide

/-- DONE = 0 before each verdict: CNT 4 and 5 (checks 1 and 2), types 0, 3 and 4, CNT at PLEN + 5 and + 6, a wrong and a
right checksum, CMD with PLEN = 0 and 1; with the code each gives (R119). -/
theorem witness_EndRecordsTheFirstFailingCheck :
    [stateOf false 0 4 0xDEAD 1 0 0x72 0 0 [], stateOf false 0 5 0xCAFF 1 0 0x34 0 0 [],
     stateOf false 0 5 0xCAFE 0 0 0x34 0 0 [], stateOf false 0 5 0xCAFE 4 0 0x30 0 0 [],
     stateOf false 0 5 0xCAFE 1 0 0x35 0 0 [], stateOf false 0 6 0xCAFE 1 0 0x35 0x34 0 [],
     stateOf false 0 6 0xCAFE 2 0 0x36 0x36 0 [], stateOf false 0 6 0xCAFE 3 0 0x37 0x37 0 [],
     stateOf false 0 7 0xCAFE 2 1 0x48 0x48 0x7F [(0, 0x7F)]].map
      (fun s => (s.done, (nextOf (exec (.endOp 0) s)).map State.status)) =
      [(false, some 1), (false, some 2), (false, some 3), (false, some 3), (false, some 4), (false, some 5),
       (false, some 6), (false, some 0), (false, some 0)] := by decide

theorem witness_EndAfterAVerdictIsTheEmptyBuffer : afterV22.done = true := by decide

theorem witness_IgnoredDinChangesNothing :
    (opField 0x000 = opField 0x0FF ∧ opField 0x000 ≠ 1) ∧ (opField 0x200 = opField 0x2FF ∧ opField 0x200 ≠ 1) ∧
    (opField 0x300 = opField 0x3FF ∧ opField 0x300 ≠ 1) := by decide

/-- V51 and the edge after it. -/
theorem witness_ResetEdgesClearAndTheNextWordRuns :
    [0x1AA, 0x200, 0x300] ≠ ([] : List CommandWord) ∧
    (feed afterV22 [.edge true 0x1AA, .edge true 0x200, .edge true 0x300, .edge false 0x1CA]).pending =
      [0x1AA, 0x200, 0x300].map (HostInput.edge true) ++ HostInput.edge false 0x1CA :: [] := by decide

theorem witness_PortsAfterReset : (feed afterV22 [.edge true 0x155]).pending = .edge true 0x155 :: [] := by decide

/-- A step of each kind of input. -/
theorem witness_DoneTellsTheLastOperation :
    step afterV22 = .next afterV22 ∧ step (feed afterV22 [.edge true 0]) = .next (initRegs afterV22) ∧
    step (feed afterV22 [.edge false 0x0FF]) = .next afterV22 ∧
    step (feed afterV22 [.edge false 0x100]) = .next (byteEdge 0 afterV22) ∧
    step (feed afterV22 [.edge false 0x1FF]) = .next (byteEdge 0xFF afterV22) ∧
    step (feed afterV22 [.edge false 0x200]) = .next (endEdge afterV22) ∧
    step (feed afterV22 [.edge false 0x2FF]) = .next (endEdge afterV22) ∧
    step (feed afterV22 [.edge false 0x300]) = .next (initRegs afterV22) :=
  ⟨rfl, rfl, rfl, rfl, rfl, rfl, rfl, rfl⟩

/-- A step that keeps STATUS and one that writes it. -/
theorem witness_NoOperationDependsOnStatus :
    step (feed midV34 [.edge false 0x110]) = .next (byteEdge 0x10 midV34) ∧
    step (feed midV34 [.edge false 0x200]) = .next (endEdge midV34) := ⟨rfl, rfl⟩

/-- A step that writes no cell and one that writes a cell. -/
theorem witness_NoOperationReadsPayloadMemory :
    step (feed afterV22 [.edge false 0x200]) = .next (endEdge afterV22) ∧
    step (feed midV34 [.edge false 0x110]) = .next (byteEdge 0x10 midV34) := ⟨rfl, rfl⟩

/-- A reset edge that carries a BYTE word, and a word on each side of the BYTE words. -/
theorem witness_OnlyByteWritesPayloadMemory :
    ((feed afterV22 [.edge true 0x1AA]).pending = .edge true 0x1AA :: [] ∧
      step (feed afterV22 [.edge true 0x1AA]) = .next (initRegs afterV22)) ∧
    (¬ (0x100 ≤ (0x0FF#10).toNat ∧ (0x0FF#10).toNat ≤ 0x1FF) ∧
      step (feed afterV22 [.edge false 0x0FF]) = .next afterV22) ∧
    (¬ (0x100 ≤ (0x200#10).toNat ∧ (0x200#10).toNat ≤ 0x1FF) ∧
      step (feed afterV22 [.edge false 0x200]) = .next (endEdge afterV22)) :=
  ⟨⟨rfl, rfl⟩, ⟨by decide, rfl⟩, ⟨by decide, rfl⟩⟩

theorem witness_PortsAreFunctionsOfTheState :
    lookupCell afterV22.pmem (0#16).toNat = some 0x7F ∧ (outPorts afterV22 0).done = true ∧
    (outPorts afterV22 0).cmdValid = true ∧ (outPorts midV34 0).busy = true := by decide

/-- A buffer of a row, and its first and last byte. -/
theorem witness_FrameIsTheRunOfItsEdges :
    decodeBuffer [0xCA, 0xFE, 0x03] = .ok (.ack (.noLength [])) ∧ 0 < ([0xCA, 0xFE, 0x03] : List Byte).length ∧
    2 < ([0xCA, 0xFE, 0x03] : List Byte).length := by decide

/-- A frame begins at reset and after a verdict. -/
theorem witness_FrameStart : FrameStart State.reset ∧ FrameStart afterV22 := ⟨.inr rfl, .inl rfl⟩

/-- With a frame begun, the shortest and the longest operands of each shape. -/
theorem witness_DataFrameGivesItsVerdict :
    FrameStart afterV22 ∧ (([0] : List Byte).length < 2) ∧ (([] : List Byte).length ≤ (0#16).toNat) ∧
    (([7, 8] : List Byte).length ≤ (2#16).toNat) ∧ (([] : List Byte).length = (0#16).toNat) ∧
    ((List.replicate 65535 (0 : Byte)).length = (0xFFFF#16).toNat) :=
  ⟨.inl rfl, by decide, by decide, by decide, by decide, List.length_replicate⟩

theorem witness_CmdFrameGivesItsVerdict :
    FrameStart State.reset ∧ (([] : List Byte).length < 2) ∧ (([] : List Byte).length ≤ (0xFFFF#16).toNat) ∧
    (([] : List Byte).length = (0#16).toNat ∧ xorFold (headerBytes 0x02 0 ++ []) = 0x36) ∧
    (([0x7F] : List Byte).length = (1#16).toNat ∧ xorFold (headerBytes 0x02 1 ++ [0x7F]) = 0x48) :=
  ⟨.inr rfl, by decide, by decide, by decide, by decide⟩

theorem witness_AckFrameGivesItsVerdict :
    FrameStart afterV22 ∧ (([0] : List Byte).length < 2) ∧ (([7] : List Byte).length ≤ (2#16).toNat) ∧
    (([0xA5, 0x5A] : List Byte).length = (2#16).toNat ∧ xorFold (headerBytes 0x03 2 ++ [0xA5, 0x5A]) = 0xCA) :=
  ⟨.inl rfl, by decide, by decide, by decide⟩

theorem witness_FrameInstructionsWriteOnlyTheirPayloadCells :
    FrameStart afterV22 ∧ (FrameTail.complete 2 [0x10, 0x20] 0x04 []).wellFormed = true ∧
    (FrameTail.cutShort 4 [0xAA, 0xBB]).wellFormed = true ∧ (FrameTail.noLength [0]).wellFormed = true :=
  ⟨.inl rfl, by decide, by decide, by decide⟩

theorem witness_RegistersAfterAWholeBuffer : FrameStart afterV22 ∧ FrameStart State.reset := ⟨.inl rfl, .inr rfl⟩

/-- With no byte yet, the registers must be at their reset values; with one, a verdict may be on show. -/
theorem witness_PortsDuringAFrame :
    (FrameStart afterV22 ∧ (([0xCA] : List Byte) ≠ [] ∨ initRegs afterV22 = afterV22)) ∧
    (FrameStart State.reset ∧ (([] : List Byte) ≠ [] ∨ initRegs State.reset = State.reset)) :=
  ⟨⟨.inl rfl, .inl (by decide)⟩, ⟨.inr rfl, .inr rfl⟩⟩

/-- V39: a frame with NOPs among its words. -/
theorem witness_HardwareComputesDecode :
    FrameStart State.reset ∧
    ([0x1CA, 0x000, 0x0FF, 0x1FE, 0x103, 0x100, 0x000, 0x100, 0x137, 0x000, 0x200] : List CommandWord).filter
        (fun w => opField w != 0) =
      [0xCA, 0xFE, 0x03, 0x00, 0x00, 0x37].map (commandWord 1) ++ [commandWord 2 0] :=
  ⟨.inr rfl, by decide⟩

/-- V25 and V26: the same bytes in another order. -/
theorem witness_XorFoldLaws : [1, 2, 3].Perm ([3, 2, 1] : List Byte) := by decide

theorem witness_FramesAreIndependent :
    FrameStart State.reset ∧ FrameStart afterV22 := ⟨.inr rfl, .inl rfl⟩

/-- V46 and V48: a generated checksum, from a verdict; and the first and the last number of bytes. -/
theorem witness_XaccGeneratesTheChecksum :
    FrameStart afterV22 ∧ ([0x7F] : List Byte).length = (bigEndian 0x00 0x01).toNat ∧
    (1 ≤ 6 ∧ 6 ≤ 5 + ([0x7F] : List Byte).length) ∧ bigEndian 0xCA 0xFE = 0xCAFE ∧
    (((2 : Byte) = 1 ∨ (2 : Byte) = 2 ∨ (2 : Byte) = 3) ∧ ((2 : Byte) = 2 → ([0x7F] : List Byte) ≠ [])) :=
  ⟨.inl rfl, by decide, by decide, by decide, by decide⟩

theorem witness_BuffersInSequenceGiveTheirResults :
    FrameStart State.reset ∧ 0 < ([[0xCA], []] : List (List Byte)).length ∧
    1 < ([[0xCA], []] : List (List Byte)).length := ⟨.inr rfl, by decide, by decide⟩

/-- V3, V6, V8 and V12, and four bytes against five. -/
theorem witness_EarlyChecksReportInOrder :
    ([0xDE, 0xAD, 0x01, 0x00] : List Byte).length < 5 ∧ (0xFE#8).toNat * 256 + (0xCA#8).toNat ≠ 0xCAFE ∧
    (0xCA#8).toNat * 256 + (0xFE#8).toNat = 0xCAFE ∧ ¬ ((0#8) = 1 ∨ (0#8) = 2 ∨ (0#8) = 3) ∧
    5 + ([] : List Byte).length < 5 + ((0#8).toNat * 256 + (0#8).toNat) + 1 := by decide

/-- V15, V17 and V22: one case of each clause. -/
theorem witness_LateChecksReportInOrder :
    (([] : List Byte).length = (0#16).toNat ∧ xorFold (headerBytes 1 0 ++ []) ≠ 0x34) ∧
    xorFold (headerBytes 2 0 ++ []) = 0x36 ∧
    (([0x7F] : List Byte).length = (1#16).toNat ∧ xorFold (headerBytes 2 1 ++ [0x7F]) = 0x48 ∧
      ([0x7F] : List Byte) ≠ []) := by decide

/-- V22, and the longest payload. -/
theorem witness_PacketRoundTrips :
    (([0x7F] : List Byte).length ≤ 65535 ∧ ((2 : Byte) = 2 → ([0x7F] : List Byte) ≠ [])) ∧
    (List.replicate 65535 (0 : Byte)).length ≤ 65535 := ⟨by decide, List.length_replicate.le⟩

theorem witness_AnotherChecksumByteIsAMismatch :
    refDecode [0xCA, 0xFE, 0x01, 0, 0, 0x35] = .packet ⟨0xCAFE, 1, 0, [], 0x35, none⟩ ∧ (0x34 : Byte) ≠ 0x35 := by decide

theorem witness_TrailingBytesChangeNothing :
    refDecode [0xCA, 0xFE, 0x01, 0, 0, 0x35] = .packet ⟨0xCAFE, 1, 0, [], 0x35, none⟩ ∧
    refDecode [0xCA, 0xFE, 0x02, 0, 0, 0x00] = .error (.checksumMismatch 0x36 0x00) ∧
    refDecode [0xCA, 0xFE, 0x02, 0, 0, 0x36] = .error .emptyCommandPayload := by decide

/-- V20 and V22: a Packet without and with a command code. -/
theorem witness_ReturnedPacketsAreValid :
    refDecode [0xCA, 0xFE, 0x01, 0, 0, 0x35] = .packet ⟨0xCAFE, 1, 0, [], 0x35, none⟩ ∧
    refDecode [0xCA, 0xFE, 0x02, 0, 1, 0x7F, 0x48] = .packet ⟨0xCAFE, 2, 1, [0x7F], 0x48, some 0x7F⟩ := by decide

/-- V3, V5, V9, V14, V18 and V17: each kind of error that `decode` returns. -/
theorem witness_ReturnedErrorsAreInRange :
    refDecode [0xCA, 0xFE, 0x01, 0x00] = .error (.insufficientHeader 4) ∧
    refDecode [0xCA, 0xFF, 0x01, 0, 0] = .error (.invalidMagic 0xCAFF) ∧
    refDecode [0xCA, 0xFE, 0x04, 0, 0] = .error (.unknownType 4) ∧
    refDecode [0xCA, 0xFE, 0x01, 0xFF, 0xFF] = .error (.insufficientBody 65541 5) ∧
    refDecode [0xCA, 0xFE, 0x02, 0, 0, 0x00] = .error (.checksumMismatch 0x36 0x00) ∧
    refDecode [0xCA, 0xFE, 0x02, 0, 0, 0x36] = .error .emptyCommandPayload := by decide

/-- The invariant holds after V22: a verdict OK is on show. -/
theorem witness_Inv_verdict : Inv afterV22 where
  pmem_wf := by decide
  top_cell := by decide
  quiet := by decide
  verdict := by decide
  magic_hi := by decide
  magic_lo := by decide
  ptype_unwritten := by decide
  plen_hi := by decide
  plen_lo := by decide
  csb_unwritten := by decide
  cmdc_unwritten := by decide
  cmdc_copy := by decide
  payload_listed := fun k h _ => by
    have hk : k < 1 := h
    obtain rfl : k = 0 := by omega
    decide
  xacc_fold := by decide

/-- The invariant holds inside a frame too: V34 after edge 5. -/
theorem witness_Inv_frame : Inv midV34 where
  pmem_wf := by decide
  top_cell := by decide
  quiet := by decide
  verdict := by decide
  magic_hi := by decide
  magic_lo := by decide
  ptype_unwritten := by decide
  plen_hi := by decide
  plen_lo := by decide
  csb_unwritten := by decide
  cmdc_unwritten := by decide
  cmdc_copy := by decide
  payload_listed := fun _ _ h => absurd h (by simp [midV34, stateOf])
  xacc_fold := by decide

/-- V36: a step from a state that meets the invariant. -/
theorem witness_StepKeepsTheInvariant :
    Inv (feed afterV22 [.edge false 0x111]) ∧
    step (feed afterV22 [.edge false 0x111]) = .next (byteEdge 0x11 afterV22) :=
  ⟨{ witness_Inv_verdict with
      verdict := witness_Inv_verdict.verdict
      payload_listed := witness_Inv_verdict.payload_listed
      xacc_fold := witness_Inv_verdict.xacc_fold }, rfl⟩

theorem witness_EveryVerdictCanBeRead :
    (Inv afterV22 ∧ afterV22.done = true) ∧ (Inv midV34 ∧ midV34.done = false) :=
  ⟨⟨witness_Inv_verdict, rfl⟩, ⟨witness_Inv_frame, rfl⟩⟩

theorem witness_OkVerdictShowsAPacket :
    Inv afterV22 ∧ afterV22.done = true ∧ afterV22.status = 0 ∧ cmdValid afterV22 = true :=
  ⟨witness_Inv_verdict, rfl, rfl, by decide⟩

end Sys2Proof.Tests
end

section
/-! SUPPORT. One edge is one step (R11): the state after an edge depends on the state and on that edge alone, and the
output ports depend on the state, `pm_data` also on `pm_addr`. -/

namespace Sys2Proof.Machine

/-- A step takes the edge presented next, and only that one: the later edges are still to come, and the registers and
PMEM are those of the edge's effect on `s`, which does not look at them. -/
theorem step_edge_withPending (x : HostInput) (rest : List HostInput) (s : State) :
    step (withPending (x :: rest) s) = .next (withPending rest (inputEffect x s)) := by
  calc step (withPending (x :: rest) s)
      = .next (inputEffect x (withPending rest s)) := step_of_pending rfl
    _ = .next (withPending rest (inputEffect x s)) := by rw [inputEffect_withPending]

/-- No port reads what the host presents later (R30, R45). -/
@[simp] theorem outPorts_withPending (rest : List HostInput) (s : State) (a : Half) :
    outPorts (withPending rest s) a = outPorts s a := rfl

/-- Another `pm_addr` changes the port `pm_data` and no other (R45). -/
theorem outPorts_pmAddr (s : State) (a b : Half) :
    outPorts s a = { outPorts s b with pmData := pmData s a } := rfl

/-- Settles O50: the state an edge leads to is the edge's effect on the state before it, whatever is presented later. -/
theorem oneEdgeIsOneStep : Obligations.OneEdgeIsOneStep := by
  refine ⟨fun s x => ⟨inputEffect x s, fun rest => ?_⟩, fun s rest a => ?_, fun s a b => ?_⟩
  · exact step_edge_withPending x rest s
  · exact outPorts_withPending rest s a
  · rw [outPorts_pmAddr s a b]

end Sys2Proof.Machine
end

section
/-! SUPPORT. What one edge does to PMEM, cell by cell (R24, R38, R44), and the payload cells read as a list (R34,
R46). -/

namespace Sys2Proof.Machine

/-! ## One edge and PMEM -/

/-- PMEM after a byte, cell by cell: the byte is in its cell when it is payload, every other cell is as before (R44). -/
theorem lookupCell_captureByte (b : Byte) (s : State) (k : Nat) :
    lookupCell (captureByte b s).pmem k =
      if (5 ≤ s.cnt.toNat ∧ s.cnt.toNat < 5 + s.plen.toNat) ∧ k = s.cnt.toNat - 5 then some b
      else lookupCell s.pmem k := by
  rw [captureByte_pmem]
  by_cases hpay : 5 ≤ s.cnt.toNat ∧ s.cnt.toNat < 5 + s.plen.toNat
  · simp only [hpay, and_self, if_true, true_and, lookupCell_memWrite]
  · simp only [hpay, if_false, false_and]

/-- No byte is captured in cell 65535 (R24). -/
theorem lookupCell_byteEdge_top (b : Byte) (s : State) :
    lookupCell (byteEdge b s).pmem 65535 = lookupCell s.pmem 65535 := by
  rw [byteEdge, absorb_pmem, lookupCell_captureByte, if_neg, openFrame_pmem]
  rintro ⟨⟨-, hlt⟩, hcell⟩
  have := payloadCell_lt hlt
  omega

/-- No edge writes cell 65535 (R24). -/
theorem lookupCell_inputEffect_top (x : HostInput) (s : State) :
    lookupCell (inputEffect x s).pmem 65535 = lookupCell s.pmem 65535 := by
  obtain h | h | ⟨b, h⟩ | h := inputEffect_cases x <;> rw [h]
  · rw [initRegs_pmem]
  · rfl
  · exact lookupCell_byteEdge_top b s
  · rw [endEdge_pmem]

/-! ## The payload cells as a list -/

/-- The bytes in cells 0 to n - 1. -/
def payloadCells (s : State) (n : Nat) : List Byte := (List.range n).map (fun k => pmData s (BitVec.ofNat 16 k))

theorem payloadCells_succ (s : State) (n : Nat) :
    payloadCells s (n + 1) = payloadCells s n ++ [pmData s (BitVec.ofNat 16 n)] := by
  simp [payloadCells, List.range_succ]

@[simp] theorem payloadCells_length (s : State) (n : Nat) : (payloadCells s n).length = n := by simp [payloadCells]

theorem payloadCells_getElem? {s : State} {n k : Nat} (h : k < n) :
    (payloadCells s n)[k]? = some (pmData s (BitVec.ofNat 16 k)) := by
  simp [payloadCells, h]

/-- A listed cell reads as the byte it holds (R43). -/
theorem pmData_of_lookupCell {s : State} {a : Half} {b : Byte} (h : lookupCell s.pmem a.toNat = some b) :
    pmData s a = b := by
  simp [pmData, h]

/-- The address of a cell, as a number again. -/
theorem toNat_cellAddress {k : Nat} (h : k < 65536) : (BitVec.ofNat 16 k).toNat = k := by
  rw [BitVec.toNat_ofNat]; exact Nat.mod_eq_of_lt h

/-- States whose first n cells agree show the same bytes there. -/
theorem payloadCells_congr {s t : State} {n : Nat} (hn : n ≤ 65536)
    (h : ∀ k, k < n → lookupCell t.pmem k = lookupCell s.pmem k) : payloadCells t n = payloadCells s n := by
  refine List.map_congr_left fun k hk => ?_
  have hk : k < n := List.mem_range.mp hk
  rw [pmData, pmData, toNat_cellAddress (by omega), h k hk]

end Sys2Proof.Machine
end

section
/-! SUPPORT. Every edge keeps the invariant of the machine (R15 to R24, R105, R115). -/

namespace Sys2Proof.Safety

open Sys2Proof.Machine

theorem payloadView_eq (s : State) : payloadView s = payloadCells s s.plen.toNat := rfl

theorem payloadSoFar_eq (s : State) : payloadSoFar s = payloadCells s (min s.plen.toNat (s.cnt.toNat - 5)) := rfl

/-- Inside the header no payload has come (R57). -/
theorem payloadSoFar_of_header {s : State} (h : s.cnt.toNat ≤ 5) : payloadSoFar s = [] := by
  rw [payloadSoFar_eq, show min s.plen.toNat (s.cnt.toNat - 5) = 0 by omega]; rfl

/-- Once the frame has reached its checksum byte the payload so far is all of it (R34). -/
theorem payloadSoFar_of_complete {s : State} (h : 5 + s.plen.toNat ≤ s.cnt.toNat) :
    payloadSoFar s = payloadView s := by
  rw [payloadSoFar_eq, payloadView_eq, show min s.plen.toNat (s.cnt.toNat - 5) = s.plen.toNat by omega]

theorem absorb_cnt_toNat (b : Byte) (s : State) : (absorb b s).cnt.toNat = min (s.cnt.toNat + 1) 131071 := by
  rw [absorb_cnt, sat17_toNat]

/-- After the header PLEN keeps its value (R20). -/
theorem captureByte_plen_of_body (b : Byte) {s : State} (h : 5 ≤ s.cnt.toNat) : (captureByte b s).plen = s.plen := by
  rw [captureByte_plen, if_neg (by omega), if_neg (by omega)]

/-- A payload byte is appended to the payload so far (R46). -/
theorem payloadSoFar_absorb_payload (b : Byte) {s : State} (h5 : 5 ≤ s.cnt.toNat)
    (hlt : s.cnt.toNat < 5 + s.plen.toNat) : payloadSoFar (absorb b s) = payloadSoFar s ++ [b] := by
  have hcell : ∀ k, lookupCell (absorb b s).pmem k = if k = s.cnt.toNat - 5 then some b else lookupCell s.pmem k := by
    simp [lookupCell_captureByte, h5, hlt]
  have hbelow := payloadCell_lt hlt
  have hnew : pmData (absorb b s) (BitVec.ofNat 16 (s.cnt.toNat - 5)) = b :=
    pmData_of_lookupCell (by rw [toNat_cellAddress (by omega), hcell, if_pos rfl])
  have hold : payloadCells (absorb b s) (s.cnt.toNat - 5) = payloadCells s (s.cnt.toNat - 5) :=
    payloadCells_congr (by omega) fun k hk => by rw [hcell, if_neg (by omega)]
  rw [payloadSoFar_eq, payloadSoFar_eq, absorb_plen, captureByte_plen_of_body b h5, absorb_cnt_toNat,
    show min s.plen.toNat (min (s.cnt.toNat + 1) 131071 - 5) = s.cnt.toNat - 5 + 1 by omega,
    show min s.plen.toNat (s.cnt.toNat - 5) = s.cnt.toNat - 5 by omega, payloadCells_succ, hnew, hold]

/-- A checksum or trailing byte leaves the payload so far as it was (R46). -/
theorem payloadSoFar_absorb_after (b : Byte) {s : State} (h : 5 + s.plen.toNat ≤ s.cnt.toNat) :
    payloadSoFar (absorb b s) = payloadSoFar s := by
  have h5 : 5 ≤ s.cnt.toNat := by omega
  have hplen := s.plen.isLt
  have hcells : payloadCells (absorb b s) s.plen.toNat = payloadCells s s.plen.toNat :=
    payloadCells_congr (by omega) fun k _ => by
      rw [absorb_pmem, lookupCell_captureByte, if_neg (by omega)]
  have hlt := s.cnt.isLt
  rw [payloadSoFar_eq, payloadSoFar_eq, absorb_plen, captureByte_plen_of_body b h5, absorb_cnt_toNat,
    show min s.plen.toNat (min (s.cnt.toNat + 1) 131071 - 5) = s.plen.toNat by omega,
    show min s.plen.toNat (s.cnt.toNat - 5) = s.plen.toNat by omega, hcells]

/-- The five header bytes as the registers hold them (R18 to R20). -/
def headerFields (s : State) : List Byte :=
  [highByte s.magic, lowByte s.magic, s.ptype, highByte s.plen, lowByte s.plen]

theorem xorFold_headerFields (s : State) :
    xorFold (headerFields s) =
      highByte s.magic ^^^ lowByte s.magic ^^^ s.ptype ^^^ highByte s.plen ^^^ lowByte s.plen := by
  simp [headerFields, xorFold, xorFoldFrom]

@[simp] theorem highByte_zero : highByte 0#16 = 0 := by decide

@[simp] theorem lowByte_zero : lowByte 0#16 = 0 := by decide

/-- After the header its fields keep their values (R18 to R20). -/
theorem headerFields_absorb_body (b : Byte) {s : State} (h : 5 ≤ s.cnt.toNat) :
    headerFields (absorb b s) = headerFields s := by
  have hm : (captureByte b s).magic = s.magic := by rw [captureByte_magic, if_neg (by omega), if_neg (by omega)]
  have ht : (captureByte b s).ptype = s.ptype := by rw [captureByte_ptype, if_neg (by omega)]
  simp only [headerFields, absorb_magic, absorb_ptype, absorb_plen, hm, ht, captureByte_plen_of_body b h]

/-- A header byte goes where the fold had a 0, so the fold of the fields takes it once (R21). -/
theorem xorFold_headerFields_absorb (b : Byte) {s : State} (h : Inv s) (hlt : s.cnt.toNat < 5) :
    xorFold (headerFields (absorb b s)) = xorFold (headerFields s) ^^^ b := by
  simp only [xorFold_headerFields, absorb_magic, absorb_ptype, absorb_plen, captureByte_magic, captureByte_ptype,
    captureByte_plen]
  obtain hc | hc | hc | hc | hc : s.cnt.toNat = 0 ∨ s.cnt.toNat = 1 ∨ s.cnt.toNat = 2 ∨ s.cnt.toNat = 3 ∨
    s.cnt.toNat = 4 := by omega
  · have hz := h.magic_hi hc
    simp [hc, hz]; ac_rfl
  · have hz := h.magic_lo (by omega)
    simp [hc, hz]; ac_rfl
  · have hz := h.ptype_unwritten (by omega)
    simp [hc, hz]; ac_rfl
  · have hz := h.plen_hi (by omega)
    simp [hc, hz]
  · have hz := h.plen_lo (by omega)
    simp [hc, hz]

/-- XACC stays the fold of the header fields and the payload so far (R21). -/
theorem xacc_fold_absorb (b : Byte) {s : State} (h : Inv s) :
    (absorb b s).xacc = xorFold (headerFields (absorb b s) ++ payloadSoFar (absorb b s)) := by
  have hfold : s.xacc = xorFold (headerFields s ++ payloadSoFar s) := h.xacc_fold
  rw [absorb_xacc, captureByte_xacc]
  rcases Nat.lt_or_ge s.cnt.toNat 5 with hhdr | h5
  · have hnone : payloadSoFar (absorb b s) = [] := payloadSoFar_of_header (by rw [absorb_cnt_toNat]; omega)
    rw [if_pos (by omega), hfold, payloadSoFar_of_header (by omega), hnone, List.append_nil, List.append_nil,
      xorFold_headerFields_absorb b h hhdr]
  · rw [headerFields_absorb_body b h5]
    split_ifs with hpay
    · rw [payloadSoFar_absorb_payload b h5 hpay, ← List.append_assoc, xorFold_concat, hfold]
    · rw [payloadSoFar_absorb_after b (by omega), hfold]

/-- A byte absorbed with no verdict on show keeps the invariant (R104). -/
theorem inv_absorb (b : Byte) {s : State} (h : Inv s) (hd : s.done = false) : Inv (absorb b s) where
  pmem_wf := by simpa [byteEdge_of_not_done b hd] using byteEdge_pmemWf b h.pmem_wf
  top_cell := by
    rw [← byteEdge_of_not_done b hd, lookupCell_byteEdge_top]; exact h.top_cell
  quiet _ := by rw [absorb_status, captureByte_status]; exact h.quiet hd
  verdict hdone := by simp at hdone
  magic_hi hc := by rw [absorb_cnt_toNat] at hc; omega
  magic_lo hc := by
    rw [absorb_cnt_toNat] at hc
    rw [absorb_magic, captureByte_magic, if_pos (by omega), lowByte_bigEndian]
    exact h.magic_lo (by omega)
  ptype_unwritten hc := by
    rw [absorb_cnt_toNat] at hc
    rw [absorb_ptype, captureByte_ptype, if_neg (by omega)]
    exact h.ptype_unwritten (by omega)
  plen_hi hc := by
    rw [absorb_cnt_toNat] at hc
    rw [absorb_plen, captureByte_plen, if_neg (by omega), if_neg (by omega)]
    exact h.plen_hi (by omega)
  plen_lo hc := by
    rw [absorb_cnt_toNat] at hc
    have hlow := h.plen_lo (by omega)
    rw [absorb_plen, captureByte_plen, if_neg (show s.cnt.toNat ≠ 4 by omega)]
    split_ifs with h3
    · rw [lowByte_bigEndian]; exact hlow
    · exact hlow
  csb_unwritten hc := by
    rw [absorb_cnt_toNat, absorb_plen] at hc
    rcases Nat.lt_or_ge s.cnt.toNat 5 with hhdr | h5
    · rw [absorb_csb, captureByte_csb, if_neg (by omega)]
      exact h.csb_unwritten (by omega)
    · rw [captureByte_plen_of_body b h5] at hc
      have := s.plen.isLt
      rw [absorb_csb, captureByte_csb, if_neg (by omega)]
      exact h.csb_unwritten (by omega)
  cmdc_unwritten hc := by
    rw [absorb_cnt_toNat, absorb_plen] at hc
    rcases Nat.lt_or_ge s.cnt.toNat 5 with hhdr | h5
    · rw [absorb_cmdc, captureByte_cmdc, if_neg (by omega)]
      exact h.cmdc_unwritten (.inl (by omega))
    · have hz : s.plen = 0 := by
        rw [captureByte_plen_of_body b h5] at hc
        exact hc.resolve_left (by omega)
      rw [absorb_cmdc, captureByte_cmdc, if_neg (by simp [hz])]
      exact h.cmdc_unwritten (.inr hz)
  cmdc_copy hc hne := by
    rw [absorb_cnt_toNat] at hc
    have h5 : 5 ≤ s.cnt.toNat := by omega
    rw [absorb_plen, captureByte_plen_of_body b h5] at hne
    have hpos : s.plen.toNat ≠ 0 := fun hz => hne (BitVec.eq_of_toNat_eq hz)
    rw [absorb_pmem, absorb_cmdc, lookupCell_captureByte, captureByte_cmdc]
    by_cases hfirst : s.cnt.toNat = 5
    · rw [if_pos (by omega), if_pos (by omega)]
    · rw [if_neg (by omega), if_neg (by omega)]
      exact h.cmdc_copy (by omega) hne
  payload_listed k hk hc := by
    rw [absorb_cnt_toNat] at hc
    have h5 : 5 ≤ s.cnt.toNat := by omega
    rw [absorb_plen, captureByte_plen_of_body b h5] at hk
    rw [absorb_pmem, lookupCell_captureByte]
    split_ifs with hcell
    · rfl
    · exact h.payload_listed k hk (by omega)
  xacc_fold := xacc_fold_absorb b h

/-- `init` gives a state that meets the invariant when PMEM is canonical and cell 65535 unwritten (R25). -/
theorem inv_initRegs {s : State} (hwf : pmemWf s.pmem = true) (htop : lookupCell s.pmem 65535 = none) :
    Inv (initRegs s) where
  pmem_wf := hwf
  top_cell := htop
  quiet _ := rfl
  verdict h := by simp at h
  magic_hi _ := rfl
  magic_lo _ := rfl
  ptype_unwritten _ := rfl
  plen_hi _ := rfl
  plen_lo _ := rfl
  csb_unwritten _ := rfl
  cmdc_unwritten _ := rfl
  cmdc_copy h := by simp at h
  payload_listed k h := by simp at h
  xacc_fold := by
    rw [payloadSoFar_of_header (by simp), List.append_nil]
    exact (show xorFold (headerFields (initRegs s)) = 0 by simp [xorFold_headerFields]).symm

/-- `open` keeps the invariant (R26). -/
theorem inv_openFrame {s : State} (h : Inv s) : Inv (openFrame s) := by
  cases hd : s.done
  · rwa [openFrame_of_not_done hd]
  · rw [openFrame_of_done hd]; exact inv_initRegs h.pmem_wf h.top_cell

/-- Recording the verdict of the first failing check keeps the invariant (R105, R129). -/
theorem inv_finalize {s : State} (h : Inv s) : Inv (finalize s) :=
  { h with
    quiet := fun hd => by simp at hd
    verdict := fun _ => rfl
    payload_listed := h.payload_listed
    xacc_fold := h.xacc_fold }

/-- Every edge keeps the invariant (R101). -/
theorem inv_inputEffect (x : HostInput) {s : State} (h : Inv s) : Inv (inputEffect x s) := by
  obtain hx | hx | ⟨b, hx⟩ | hx := inputEffect_cases x <;> rw [hx]
  · exact inv_initRegs h.pmem_wf h.top_cell
  · exact h
  · exact inv_absorb b (inv_openFrame h) (openFrame_done s)
  · exact inv_finalize (inv_openFrame h)

/-- The invariant does not speak of what the host presents. -/
theorem inv_withPending (rest : List HostInput) {s : State} (h : Inv s) : Inv (withPending rest s) :=
  { h with
    verdict := h.verdict
    payload_listed := h.payload_listed
    xacc_fold := h.xacc_fold }

/-- Settles O47: a step changes nothing or is the effect of one edge. -/
theorem stepKeepsTheInvariant : Obligations.StepKeepsTheInvariant := by
  intro s t h hstep
  obtain ⟨-, rfl⟩ | ⟨x, rest, -, rfl⟩ := step_cases hstep
  · exact h
  · exact inv_inputEffect x (inv_withPending rest h)

/-- Settles O46: the reset state is `init` of itself, and lists no cell. -/
theorem invariantHoldsAtReset : Obligations.InvariantHoldsAtReset :=
  inv_initRegs (s := State.reset) pmemWf_reset rfl

end Sys2Proof.Safety
end

section
/-! SUPPORT. The port operations in every state: that each completes, what an edge does to STATUS and to PMEM, the
ports, and the operations after a verdict (R15, R16, R24, R26, R28, R30). -/

namespace Sys2Proof.Machine

open Sys2Proof.Safety

/-! ## Completion -/

/-- A frame type's first edge is the BYTE of CA, and the host presents the rest of its frame next (R57, R70). -/
theorem beginFrame_frameBytes (ty : Byte) (tail : FrameTail) (s : State) :
    beginFrame (frameBytes ty tail) s =
      byteEdge 0xCA { s with pending := frameEdges (0xFE :: ty :: tailBytes tail) ++ s.pending } := rfl

/-- A cell that lists the same byte as before reads as before. -/
theorem pmData_congr {s t : State} {a : Half} (h : lookupCell t.pmem a.toNat = lookupCell s.pmem a.toNat) :
    pmData t a = pmData s a := by
  rw [pmData, pmData, h]

theorem pmData_byteEdge_top (b : Byte) (s : State) : pmData (byteEdge b s) 0xFFFF = pmData s 0xFFFF :=
  pmData_congr (lookupCell_byteEdge_top b s)

theorem pmData_beginFrame_top (ty : Byte) (tail : FrameTail) (s : State) :
    pmData (beginFrame (frameBytes ty tail) s) 0xFFFF = pmData s 0xFFFF := by
  rw [beginFrame_frameBytes]; exact pmData_byteEdge_top _ _

theorem beginFrame_frameBytes_pending (ty : Byte) (tail : FrameTail) (s : State) :
    (beginFrame (frameBytes ty tail) s).pending = frameEdges (0xFE :: ty :: tailBytes tail) ++ s.pending := by
  rw [beginFrame_frameBytes, byteEdge_pending]

/-- Settles O19: an instruction's next state is its effect, a byte edge for BYTE and for the frame types. -/
theorem everyInstructionCompletes : Obligations.EveryInstructionCompletes := by
  intro i s
  refine ⟨effect i s, exec_eq_effect i s, ?_⟩
  cases i with
  | nop din => exact ⟨rfl, rfl, rfl⟩
  | byte din => exact ⟨pmData_byteEdge_top din s, rfl, byteEdge_pending din s⟩
  | endOp din => exact ⟨pmData_congr (by rw [effect, endEdge_pmem]), rfl, endEdge_pending s⟩
  | clr din => exact ⟨rfl, rfl, rfl⟩
  | data tail => exact ⟨pmData_beginFrame_top _ tail s, rfl, beginFrame_frameBytes_pending _ tail s⟩
  | cmd tail => exact ⟨pmData_beginFrame_top _ tail s, rfl, beginFrame_frameBytes_pending _ tail s⟩
  | ack tail => exact ⟨pmData_beginFrame_top _ tail s, rfl, beginFrame_frameBytes_pending _ tail s⟩

/-! ## STATUS (R16) -/

/-- The state with another STATUS. -/
def withStatus (c : StatusCode) (s : State) : State := { s with status := c }

theorem captureByte_withStatus (b : Byte) (c : StatusCode) (s : State) :
    captureByte b (withStatus c s) = withStatus c (captureByte b s) := by
  simp only [captureByte, apply_ite (withStatus c)]
  rfl

/-- With no verdict on show a byte keeps whatever STATUS holds. -/
theorem byteEdge_withStatus (b : Byte) (c : StatusCode) {s : State} (h : s.done = false) :
    byteEdge b (withStatus c s) = withStatus c (byteEdge b s) := by
  rw [byteEdge_of_not_done b h, byteEdge_of_not_done b (s := withStatus c s) h, absorb, captureByte_withStatus]
  rfl

theorem byteEdge_status (b : Byte) {s : State} (h : s.done = false) : (byteEdge b s).status = s.status := by
  rw [byteEdge_of_not_done b h, absorb_status, captureByte_status]

/-- With a verdict on show a byte drops STATUS unread. -/
theorem byteEdge_withStatus_of_done (b : Byte) (c : StatusCode) {s : State} (h : s.done = true) :
    byteEdge b (withStatus c s) = byteEdge b s := by
  rw [byteEdge_of_done b h, byteEdge_of_done b (s := withStatus c s) h]
  rfl

/-- END writes STATUS without reading it. -/
theorem endEdge_withStatus (c : StatusCode) (s : State) : endEdge (withStatus c s) = endEdge s := by
  cases h : s.done
  · rw [endEdge, endEdge, openFrame_of_not_done h, openFrame_of_not_done (s := withStatus c s) h]
    rfl
  · rw [endEdge, endEdge, openFrame_of_done h, openFrame_of_done (s := withStatus c s) h]
    rfl

/-- An edge keeps STATUS and does the same under any other, or overwrites it by the same value (R16). -/
theorem inputEffect_withStatus (x : HostInput) (s : State) :
    ((inputEffect x s).status = s.status ∧
      ∀ c, inputEffect x (withStatus c s) = withStatus c (inputEffect x s)) ∨
    (∀ c, inputEffect x (withStatus c s) = inputEffect x s) := by
  obtain h | h | ⟨b, h⟩ | h := inputEffect_cases x <;> rw [h]
  · exact .inr fun _ => rfl
  · exact .inl ⟨rfl, fun _ => rfl⟩
  · cases hd : s.done
    · exact .inl ⟨byteEdge_status b hd, fun c => byteEdge_withStatus b c hd⟩
    · exact .inr fun c => byteEdge_withStatus_of_done b c hd
  · exact .inr fun c => endEdge_withStatus c s

/-- Settles O22: a step without an edge keeps STATUS, and an edge is covered case by case. -/
theorem noOperationDependsOnStatus : Obligations.NoOperationDependsOnStatus := by
  intro s t hstep
  obtain ⟨hp, rfl⟩ | ⟨x, rest, hp, rfl⟩ := step_cases hstep
  · exact .inl ⟨rfl, fun _ => step_of_empty hp⟩
  · have hs : ∀ c, step { s with status := c } = .next (inputEffect x (withStatus c { s with pending := rest })) :=
      fun c => step_of_pending hp
    obtain ⟨hkeep, hc⟩ | hc := inputEffect_withStatus x { s with pending := rest }
    · exact .inl ⟨hkeep, fun c => by rw [hs, hc]; rfl⟩
    · exact .inr fun c => by rw [hs, hc]

/-! ## Who writes PMEM (R24, R38) -/

/-- The command words of BYTE are 0x100 to 0x1FF (R55). -/
theorem opField_eq_one_iff (w : CommandWord) : opField w = 1 ↔ 0x100 ≤ w.toNat ∧ w.toNat ≤ 0x1FF := by
  rw [← BitVec.toNat_inj, opField_toNat]
  change w.toNat / 256 = 1 ↔ _
  omega

/-- An edge that is a reset or carries a word other than BYTE leaves PMEM alone. -/
theorem inputEffect_pmem_of_not_byte {x : HostInput} (h : x.rst = true ∨ opField x.cw ≠ 1) (s : State) :
    (inputEffect x s).pmem = s.pmem := by
  obtain ⟨rst, w⟩ := x
  cases rst
  · have hop : opField w ≠ 1 := by simpa using h
    simp only [inputEffect, sample_word, decodeWord, if_neg hop]
    split_ifs
    · rfl
    · exact endEdge_pmem s
    · rfl
  · rfl

/-- Settles O24: only the edge of a BYTE word touches PMEM, and it never reaches cell 65535. -/
theorem onlyByteWritesPayloadMemory : Obligations.OnlyByteWritesPayloadMemory := by
  refine ⟨fun s t rst w rest hp hx hstep => ?_, fun s t hstep => ?_⟩
  · obtain ⟨hnil, -⟩ | ⟨x, rest', hp', rfl⟩ := step_cases hstep
    · simp [hp] at hnil
    · obtain ⟨rfl, rfl⟩ : HostInput.edge rst w = x ∧ rest = rest' := by simpa [hp] using hp'
      rw [← opField_eq_one_iff] at hx
      rw [inputEffect_pmem_of_not_byte hx]
  · obtain ⟨-, rfl⟩ | ⟨x, rest, -, rfl⟩ := step_cases hstep
    · rfl
    · exact pmData_congr (lookupCell_inputEffect_top x _)

/-! ## The ports (R28, R30) -/

theorem busy_iff (s : State) : busy s = true ↔ s.done = false ∧ s.cnt.toNat ≠ 0 := by
  simp [busy, ← BitVec.toNat_inj]

theorem cmdValid_iff (s : State) : cmdValid s = true ↔ s.done = true ∧ s.status = 0 ∧ s.ptype = 0x02 := by
  simp [cmdValid, Config.typeCmd, and_assoc]

theorem busy_of_done {s : State} (h : s.done = true) : busy s = false := by simp [busy, h]

theorem cmdValid_of_not_done {s : State} (h : s.done = false) : cmdValid s = false := by simp [cmdValid, h]

/-- Settles O25: the sum is exact, the flags are as R28 defines them, and the other ports are the registers. -/
theorem portsAreFunctionsOfTheState : Obligations.PortsAreFunctionsOfTheState := fun s _ =>
  ⟨expTotal_toNat s, busy_iff s, cmdValid_iff s, busy_of_done, fun _ => pmData_of_lookupCell,
    rfl, rfl, rfl, rfl, rfl, rfl, rfl, rfl, rfl⟩

/-! ## The first operation after a verdict (R26) -/

/-- The first byte of a frame that begins at `init` (R25, R104). -/
theorem absorb_initRegs (b : Byte) (s : State) :
    absorb b (initRegs s) = { cleared s.pmem s.pending with cnt := 1, magic := bigEndian b 0, xacc := b } := by
  have h0 : captureByte b (initRegs s) = foldXacc b { initRegs s with magic := bigEndian b 0 } := rfl
  rw [absorb, h0, foldXacc, show (initRegs s).xacc ^^^ b = b from BitVec.zero_xor]
  rfl

/-- Every byte makes the block busy (R28). -/
theorem busy_byteEdge (b : Byte) (s : State) : busy (byteEdge b s) = true := by
  refine (busy_iff _).mpr ⟨rfl, ?_⟩
  rw [byteEdge, absorb_cnt_toNat]
  omega

/-- Settles O12: `open` has given `init` before the byte is absorbed, and no byte leaves CNT at 0. -/
theorem byteAfterAVerdictStartsANewFrame : Obligations.ByteAfterAVerdictStartsANewFrame := by
  refine ⟨fun b s hd => ?_, fun b s => ⟨byteEdge b s, exec_eq_effect (.byte b) s, rfl, busy_byteEdge b s, ?_⟩⟩
  · rw [exec_eq_effect, effect, byteEdge_of_done b hd, absorb_initRegs]
  · exact cmdValid_of_not_done rfl

/-- END after a verdict is the verdict of a frame of no bytes (R106, R152). -/
theorem endEdge_of_done {s : State} (h : s.done = true) :
    endEdge s = { cleared s.pmem s.pending with done := true, status := 1 } := by
  rw [endEdge, openFrame_of_done h]
  rfl

/-- Settles O14: END drops the verdict and closes a frame of no bytes. -/
theorem endAfterAVerdictIsTheEmptyBuffer : Obligations.EndAfterAVerdictIsTheEmptyBuffer := fun d s hd =>
  ⟨endEdge s, exec_eq_effect (.endOp d) s, endEdge_of_done hd, by rw [endEdge_of_done hd]; rfl⟩

end Sys2Proof.Machine
end

section
/-! SUPPORT. What the invariant says of a verdict on show (R28, R34, R90, R108, R126). -/

namespace Sys2Proof.Safety

open Sys2Proof.Machine

/-- Under the invariant STATUS is never code 7 (R126). -/
theorem Inv.status_ne_seven {s : State} (h : Inv s) : s.status ≠ 7 := by
  cases hd : s.done
  · rw [h.quiet hd]; decide
  · rw [h.verdict hd]; exact statusCode_firstFailure_ne_seven s

theorem result_of_not_done {s : State} (h : s.done = false) : result s = none := by simp [result, h]

theorem statusCode_eq_of_ne_seven :
    ∀ c : StatusCode, c ≠ 7 → c = 0 ∨ c = 1 ∨ c = 2 ∨ c = 3 ∨ c = 4 ∨ c = 5 ∨ c = 6 := by decide

/-- Every verdict but code 7 has a result, and it is not InvalidInput (R108). -/
theorem exists_result_of_done {s : State} (hd : s.done = true) (h7 : s.status ≠ 7) :
    ∃ r, result s = some r ∧ r ≠ .error .invalidInput := by
  obtain hc | hc | hc | hc | hc | hc | hc := statusCode_eq_of_ne_seven s.status h7 <;> simp [result, hd, hc]

/-- Settles O48: STATUS is the code of a check or 0, and `result` reads each of those. -/
theorem everyVerdictCanBeRead : Obligations.EveryVerdictCanBeRead := fun _ h =>
  ⟨h.status_ne_seven, fun hd => ⟨h.quiet hd, result_of_not_done hd⟩, fun hd =>
    exists_result_of_done hd h.status_ne_seven⟩

/-! ## A verdict OK -/

/-- END records OK exactly when every check passes (R105). -/
theorem statusCode_firstFailure_eq_zero (s : State) :
    statusCode (firstFailure s) = 0 ↔
      s.magic = 0xCAFE ∧ (s.ptype = 1 ∨ s.ptype = 2 ∨ s.ptype = 3) ∧ s.plen.toNat + 6 ≤ s.cnt.toNat ∧
        s.xacc = s.csb ∧ (s.ptype = 2 → s.plen ≠ 0) := by
  rw [statusCode_firstFailure]
  split_ifs with h1 h2 h3 h4 h5 h6
  · exact iff_of_false (by decide) fun ⟨_, _, hc, _⟩ => by omega
  · exact iff_of_false (by decide) fun ⟨hm, _⟩ => h2 hm
  · exact iff_of_false (by decide) fun ⟨_, _, hc, _⟩ => by omega
  · exact iff_of_false (by decide) fun ⟨_, _, _, hx, _⟩ => h5 hx
  · exact iff_of_false (by decide) fun ⟨_, _, _, _, hp⟩ => hp h6.1 h6.2
  · exact iff_of_true rfl ⟨not_not.mp h2, h3, by omega, not_not.mp h5, fun ht hp => h6 ⟨ht, hp⟩⟩
  · exact iff_of_false (by decide) fun ⟨_, ht, _⟩ => h3 ht

/-- The Packet the ports show when the verdict is OK (R34, R108). -/
def shownPacket (s : State) : Packet :=
  ⟨s.magic, s.ptype, s.plen, payloadView s, s.csb, if s.ptype = 2 then some s.cmdc else none⟩

theorem result_of_ok {s : State} (hd : s.done = true) (hs : s.status = 0) :
    result s = some (.packet (shownPacket s)) := by
  simp [result, hd, hs, shownPacket]

theorem headerFields_of_magic {s : State} (h : s.magic = 0xCAFE) : headerFields s = headerBytes s.ptype s.plen := by
  rw [headerFields, h]; rfl

/-- Once the whole payload has come, its cells are written and the payload view shows them (R34, R115). -/
theorem lookupCell_eq_payloadView {s : State} (h : Inv s) (hcnt : s.plen.toNat + 6 ≤ s.cnt.toNat) {k : Nat}
    (hk : k < s.plen.toNat) : lookupCell s.pmem k = (payloadView s)[k]? := by
  obtain ⟨b, hb⟩ := Option.isSome_iff_exists.mp (h.payload_listed k hk (by omega))
  have haddr := toNat_cellAddress (k := k) (by have := s.plen.isLt; omega)
  rw [payloadView_eq, payloadCells_getElem? hk, hb, pmData_of_lookupCell (b := b) (by rw [haddr, hb])]

/-- With a payload, CMDC is the first byte of the view (R23). -/
theorem head?_payloadView {s : State} (h : Inv s) (hcnt : s.plen.toNat + 6 ≤ s.cnt.toNat) (hne : s.plen ≠ 0) :
    (payloadView s).head? = some s.cmdc := by
  have hpos : s.plen.toNat ≠ 0 := fun hz => hne (BitVec.eq_of_toNat_eq hz)
  rw [List.head?_eq_getElem?, ← lookupCell_eq_payloadView h hcnt (by omega)]
  exact h.cmdc_copy (by omega) hne

/-- Settles O49: with every check passed, the invariant says of the shown Packet what R90 asks. -/
theorem okVerdictShowsAPacket : Obligations.OkVerdictShowsAPacket := by
  intro s h hd hs
  obtain ⟨hmagic, htype, hcnt, hcsum, hcmd⟩ :=
    (statusCode_firstFailure_eq_zero s).mp ((h.verdict hd).symm.trans hs)
  have hfold : s.xacc = xorFold (headerBytes s.ptype s.plen ++ payloadView s) := by
    rw [← headerFields_of_magic hmagic, ← payloadSoFar_of_complete (by omega)]
    exact h.xacc_fold
  refine ⟨shownPacket s, result_of_ok hd hs, hmagic, hmagic, htype, payloadCells_length s _, hcsum.symm,
    hcsum.symm.trans hfold, fun k => lookupCell_eq_payloadView h hcnt, fun hv => ?_⟩
  obtain ⟨-, -, ht⟩ := (cmdValid_iff s).mp hv
  exact ⟨head?_payloadView h hcnt (hcmd ht), by rw [shownPacket, if_pos ht]⟩

end Sys2Proof.Safety
end

section
/-! SUPPORT. What the registers and PMEM hold after the bytes of a frame, whatever the bytes (R46, R104, R113), and that
presenting the frame's words reaches that state. -/

namespace Sys2Proof.Safety

open Sys2Proof.Machine

/-! ## Bytes of a buffer that grows at its end -/

/-- One more byte: at its own offset it is the byte there, at every other offset nothing changes. -/
theorem getD_concat (bs : List Byte) (b : Byte) (i : Nat) :
    (bs ++ [b]).getD i 0 = if i = bs.length then b else bs.getD i 0 := by
  rcases Nat.lt_trichotomy i bs.length with h | h | h
  · rw [if_neg (by omega), List.getD_append _ _ _ _ h]
  · rw [if_pos h, h, List.getD_append_right _ _ _ _ le_rfl, Nat.sub_self]; rfl
  · rw [if_neg (by omega), List.getD_eq_default _ _ (by simp; omega), List.getD_eq_default _ _ (by omega)]

theorem declaredLength_lt (bs : List Byte) : declaredLength bs < 65536 := BitVec.isLt _

/-- After the header the declared length is settled (R83). -/
theorem declaredLength_concat {bs : List Byte} (b : Byte) (h : 5 ≤ bs.length) :
    declaredLength (bs ++ [b]) = declaredLength bs := by
  simp only [declaredLength, getD_concat, show 3 ≠ bs.length by omega, show 4 ≠ bs.length by omega, if_false]

/-- A byte is folded while it is before the checksum offset (R21). -/
theorem xorFold_take_concat (bs : List Byte) (b : Byte) (n : Nat) :
    xorFold ((bs ++ [b]).take n) = if bs.length < n then xorFold (bs.take n) ^^^ b else xorFold (bs.take n) := by
  split_ifs with h
  · rw [List.take_of_length_le (by simp; omega), xorFold_concat, List.take_of_length_le (by omega)]
  · rw [List.take_append_of_le_length (by omega)]

/-! ## The state after the bytes -/

/-- The registers and PMEM of `t` are those of a frame that began at `init` over the memory `m` and has brought the
bytes `bs` (R104, R113); bytes not there count as 0. -/
structure HoldsBytes (bs : List Byte) (m : List Host.Cell) (t : State) : Prop where
  done : t.done = false
  status : t.status = 0
  cnt : t.cnt.toNat = min bs.length 131071
  magic : t.magic = bigEndian (bs.getD 0 0) (bs.getD 1 0)
  ptype : t.ptype = bs.getD 2 0
  plen : t.plen = bigEndian (bs.getD 3 0) (bs.getD 4 0)
  xacc : t.xacc = xorFold (bs.take (5 + declaredLength bs))
  csb : t.csb = bs.getD (5 + declaredLength bs) 0
  cmdc : t.cmdc = if 1 ≤ declaredLength bs then bs.getD 5 0 else 0
  pmem : ∀ k, lookupCell t.pmem k =
    if k < min (declaredLength bs) (bs.length - 5) then some (bs.getD (5 + k) 0) else lookupCell m k

theorem HoldsBytes.plen_toNat {bs : List Byte} {m : List Host.Cell} {t : State} (h : HoldsBytes bs m t) :
    t.plen.toNat = declaredLength bs := by rw [h.plen, declaredLength]

theorem holdsBytes_nil (s : State) : HoldsBytes [] s.pmem (initRegs s) where
  done := rfl
  status := rfl
  cnt := rfl
  magic := rfl
  ptype := rfl
  plen := rfl
  xacc := rfl
  csb := rfl
  cmdc := rfl
  pmem _ := rfl

/-- One more byte absorbed is one more byte held (R104). -/
theorem HoldsBytes.absorb {bs : List Byte} {m : List Host.Cell} {t : State} (h : HoldsBytes bs m t) (b : Byte) :
    HoldsBytes (bs ++ [b]) m (absorb b t) := by
  have hplen := h.plen_toNat
  have hlt := declaredLength_lt bs
  have hcnt := h.cnt
  have hlen : (bs ++ [b]).length = bs.length + 1 := List.length_append
  exact {
    done := rfl
    status := by rw [absorb_status, captureByte_status, h.status]
    cnt := by rw [absorb_cnt_toNat, hcnt, hlen]; omega
    magic := by
      rw [absorb_magic, captureByte_magic, hcnt, h.magic, getD_concat, getD_concat, highByte_bigEndian,
        lowByte_bigEndian]
      grind
    ptype := by
      rw [absorb_ptype, captureByte_ptype, hcnt, h.ptype, getD_concat]
      grind
    plen := by
      rw [absorb_plen, captureByte_plen, hcnt, h.plen, getD_concat, getD_concat, highByte_bigEndian,
        lowByte_bigEndian]
      grind
    xacc := by
      rw [absorb_xacc, captureByte_xacc, hcnt, hplen, xorFold_take_concat, h.xacc]
      rcases Nat.lt_or_ge bs.length 5 with hh | h5
      · rw [if_pos (by omega), if_pos (by omega), List.take_of_length_le (by omega),
          List.take_of_length_le (by omega)]
      · rw [declaredLength_concat b h5]
        grind
    csb := by
      rw [absorb_csb, captureByte_csb, hcnt, hplen, getD_concat, h.csb]
      rcases Nat.lt_or_ge bs.length 5 with hh | h5
      · rw [if_neg (by omega), if_neg (by omega), List.getD_eq_default _ _ (by omega),
          List.getD_eq_default _ _ (by omega)]
      · rw [declaredLength_concat b h5]
        grind
    cmdc := by
      rw [absorb_cmdc, captureByte_cmdc, hcnt, hplen, getD_concat, h.cmdc]
      rcases Nat.lt_or_ge bs.length 5 with hh | h5
      · rw [List.getD_eq_default _ _ (show bs.length ≤ 5 by omega)]
        grind
      · rw [declaredLength_concat b h5]
        grind
    pmem := fun k => by
      rw [absorb_pmem, lookupCell_captureByte, hcnt, hplen, hlen, getD_concat, h.pmem]
      rcases Nat.lt_or_ge bs.length 5 with hh | h5
      · rw [if_neg (by omega), if_neg (by omega), if_neg (by omega)]
      · rw [declaredLength_concat b h5]
        grind }

/-- The bytes of a frame that begins at `init` are held, in order (R104, R113). -/
theorem holdsBytes_presentBytes (bs : List Byte) (s : State) : HoldsBytes bs s.pmem (presentBytes bs (initRegs s)) := by
  induction bs using List.reverseRecOn with
  | nil => exact holdsBytes_nil s
  | append_singleton bs b ih =>
    rw [presentBytes_concat, byteEdge_of_not_done b ih.done]
    exact ih.absorb b

/-! ## From where a frame begins -/

/-- Where a frame begins, `open` gives `init` (R26). -/
theorem openFrame_of_frameStart {s : State} (h : FrameStart s) : openFrame s = initRegs s := by
  obtain hd | hi := h
  · exact openFrame_of_done hd
  · rw [← hi, openFrame_initRegs]; rfl

/-- A frame presented where one begins is the frame presented at `init`: its first edge opens it (R26, R113). -/
theorem presentFrame_of_frameStart (bs : List Byte) {s : State} (h : FrameStart s) :
    presentFrame bs s = finalize (presentBytes bs (initRegs s)) := by
  cases bs with
  | nil => rw [presentFrame, presentBytes, presentBytes, endEdge, openFrame_of_frameStart h]
  | cons b rest =>
    have hfirst : byteEdge b s = byteEdge b (initRegs s) := by
      rw [byteEdge, byteEdge, openFrame_of_frameStart h, openFrame_initRegs]
    rw [presentFrame, presentBytes, hfirst, ← presentBytes, endEdge,
      openFrame_of_not_done (holdsBytes_presentBytes (b :: rest) s).done]

/-- Presenting command words reaches the state their edges come to. -/
theorem reaches_inputsEffect (ws : List CommandWord) (s : State) :
    Reaches ws s (inputsEffect (ws.map (HostInput.edge false)) s) := by
  intro rest
  simpa using run_inputs (ws.map (HostInput.edge false)) rest s

/-- Presenting the words of a buffer reaches its frame's verdict (R70). -/
theorem reaches_frameWords (data : List Byte) (s : State) : Reaches (frameWords data) s (presentFrame data s) := by
  rw [← inputsEffect_frameEdges]; exact reaches_inputsEffect (frameWords data) s

/-- The read port over the cells of a frame held (R45, R46). -/
theorem HoldsBytes.pmData {bs : List Byte} {s t : State} (h : HoldsBytes bs s.pmem t) (a : Half) :
    pmData t a =
      if a.toNat < min (declaredLength bs) (bs.length - 5) then bs.getD (5 + a.toNat) 0 else pmData s a := by
  split_ifs with hk
  · exact pmData_of_lookupCell (by rw [h.pmem, if_pos hk])
  · exact pmData_congr (by rw [h.pmem, if_neg hk])

/-- Settles O31: END writes DONE and STATUS only, so the state reached still holds the bytes. -/
theorem registersAfterAWholeBuffer : Obligations.RegistersAfterAWholeBuffer := by
  intro s data hstart
  have h := holdsBytes_presentBytes data s
  refine ⟨presentFrame data s, reaches_frameWords data s, presentFrame_done data s, ?_⟩
  rw [presentFrame_of_frameStart data hstart]
  exact ⟨h.cnt, h.magic, h.ptype, h.plen, h.xacc, h.csb, h.cmdc, h.pmData⟩

end Sys2Proof.Safety
end

section
/-! SUPPORT. Payload memory: no edge reads it (R38), and what a frame instruction leaves in it (R44, R46). -/

namespace Sys2Proof.Machine

/-! ## No edge reads PMEM (R38) -/

/-- The state with another content of PMEM. -/
def withPmem (m : List Host.Cell) (s : State) : State := { s with pmem := m }

/-- PMEM after the one write an edge makes, if it makes one. -/
def writeCell : Option (Nat × Byte) → List Host.Cell → List Host.Cell
  | none, m => m
  | some (cell, b), m => memWrite m cell b

/-- The write a byte makes at offset CNT (R44): its cell and itself when it is payload. PMEM is not looked at. -/
def payloadWrite (b : Byte) (s : State) : Option (Nat × Byte) :=
  if 5 ≤ s.cnt.toNat ∧ s.cnt.toNat < 5 + s.plen.toNat then some (s.cnt.toNat - 5, b) else none

theorem captureByte_pmem_eq_writeCell (b : Byte) (s : State) :
    (captureByte b s).pmem = writeCell (payloadWrite b s) s.pmem := by
  rw [captureByte_pmem, payloadWrite]
  split_ifs <;> rfl

/-- The arm a byte takes, and what it loads into the registers, do not depend on PMEM (R104). -/
theorem withPmem_captureByte_withPmem (b : Byte) (m n : List Host.Cell) (s : State) :
    withPmem n (captureByte b (withPmem m s)) = withPmem n (captureByte b s) := by
  simp only [captureByte, apply_ite (withPmem n)]
  rfl

theorem captureByte_withPmem (b : Byte) (m : List Host.Cell) (s : State) :
    captureByte b (withPmem m s) = withPmem (writeCell (payloadWrite b s) m) (captureByte b s) := by
  have hpmem : (captureByte b (withPmem m s)).pmem = writeCell (payloadWrite b s) m :=
    captureByte_pmem_eq_writeCell b (withPmem m s)
  rw [← hpmem, ← withPmem_captureByte_withPmem b m]
  rfl

theorem openFrame_withPmem (m : List Host.Cell) (s : State) : openFrame (withPmem m s) = withPmem m (openFrame s) := by
  simp only [openFrame, apply_ite (withPmem m)]
  rfl

theorem byteEdge_withPmem (b : Byte) (m : List Host.Cell) (s : State) :
    byteEdge b (withPmem m s) = withPmem (writeCell (payloadWrite b (openFrame s)) m) (byteEdge b s) := by
  simp only [byteEdge, absorb, openFrame_withPmem, captureByte_withPmem]
  rfl

theorem endEdge_withPmem (m : List Host.Cell) (s : State) : endEdge (withPmem m s) = withPmem m (endEdge s) := by
  simp only [endEdge, openFrame_withPmem]
  rfl

/-- An edge makes at most one write, the same one over every content of PMEM, and nothing else depends on that
content (R38). -/
theorem inputEffect_withPmem (x : HostInput) (s : State) :
    ∃ written : Option (Nat × Byte), ∀ m : List Host.Cell,
      inputEffect x (withPmem m s) = withPmem (writeCell written m) (inputEffect x s) := by
  obtain h | h | ⟨b, h⟩ | h := inputEffect_cases x <;> rw [h]
  · exact ⟨none, fun _ => rfl⟩
  · exact ⟨none, fun _ => rfl⟩
  · exact ⟨payloadWrite b (openFrame s), fun m => byteEdge_withPmem b m s⟩
  · exact ⟨none, fun m => endEdge_withPmem m s⟩

/-- A step as an edge is: at most one write, the same over every content of PMEM. -/
theorem step_withPmem {s t : State} (h : step s = .next t) :
    ∃ written : Option (Nat × Byte), ∀ m : List Host.Cell,
      step (withPmem m s) = .next (withPmem (writeCell written m) t) := by
  obtain ⟨hp, rfl⟩ | ⟨x, rest, hp, rfl⟩ := step_cases h
  · exact ⟨none, fun _ => step_of_empty hp⟩
  · obtain ⟨written, hw⟩ := inputEffect_withPmem x { s with pending := rest }
    exact ⟨written, fun m => (step_of_pending (s := withPmem m s) hp).trans (congrArg Host.Outcome.next (hw m))⟩

/-- Settles O23: the write of a step is fixed before PMEM is chosen, and reading after it gives the byte in its cell. -/
theorem noOperationReadsPayloadMemory : Obligations.NoOperationReadsPayloadMemory := by
  intro s t hstep
  obtain ⟨written, hw⟩ := step_withPmem hstep
  refine ⟨written, fun m => ⟨writeCell written m, hw m, ?_⟩⟩
  cases written with
  | none => rfl
  | some w => exact lookupCell_memWrite m w.1 w.2

end Sys2Proof.Machine

namespace Sys2Proof.Safety

open Sys2Proof.Machine

/-! ## What a frame instruction leaves in PMEM (R44, R46) -/

@[simp] theorem frameBytes_length (ty : Byte) (tail : FrameTail) :
    (frameBytes ty tail).length = (tailBytes tail).length + 3 := rfl

/-- The length field of a buffer that has one, whatever follows it (R83). -/
theorem declaredLength_header (m0 m1 ty : Byte) (plen : Half) (body : List Byte) :
    declaredLength (m0 :: m1 :: ty :: highByte plen :: lowByte plen :: body) = plen.toNat :=
  congrArg BitVec.toNat (bigEndian_highByte_lowByte plen)

/-- The bytes a well-formed frame captures as payload, those at offset 5 and on within the declared length, are as many
as its operand brings (R57). -/
theorem captured_eq_tailPayload_length (ty : Byte) {tail : FrameTail} (h : tail.wellFormed = true) :
    min (declaredLength (frameBytes ty tail)) ((frameBytes ty tail).length - 5) = (tailPayload tail).length := by
  cases tail with
  | noLength rest =>
    have hrest : rest.length < 2 := of_decide_eq_true h
    simp only [frameBytes_length, tailBytes, tailPayload, List.length_nil]
    omega
  | cutShort plen payload =>
    have hfit : payload.length ≤ plen.toNat := of_decide_eq_true h
    simp only [frameBytes, tailBytes, tailPayload, declaredLength_header, List.length_cons]
    omega
  | complete plen payload csum trailing =>
    have hfull : payload.length = plen.toNat := of_decide_eq_true h
    simp only [frameBytes, tailBytes, tailPayload, declaredLength_header, List.length_cons, List.length_append]
    omega

/-- Payload byte k of an operand stands at offset 5 + k of its buffer (R57). -/
theorem frameBytes_getD_payload (ty : Byte) {tail : FrameTail} {k : Nat} (hk : k < (tailPayload tail).length) :
    (frameBytes ty tail).getD (5 + k) 0 = (tailPayload tail).getD k 0 := by
  rw [Nat.add_comm 5 k]
  cases tail with
  | noLength rest => exact absurd hk (Nat.not_lt_zero k)
  | cutShort plen payload => rfl
  | complete plen payload csum trailing => exact List.getD_append payload (csum :: trailing) 0 k hk

/-- PMEM at the end of a well-formed frame's run from where a frame begins: the payload bytes it brings, and every other
cell as before (R46). -/
theorem pmData_presentFrame_frameBytes (ty : Byte) {s : State} {tail : FrameTail} (hstart : FrameStart s)
    (hwf : tail.wellFormed = true) (a : Half) :
    pmData (presentFrame (frameBytes ty tail) s) a =
      if a.toNat < (tailPayload tail).length then (tailPayload tail).getD a.toNat 0 else pmData s a := by
  have hheld := (holdsBytes_presentBytes (frameBytes ty tail) s).pmData a
  rw [captured_eq_tailPayload_length ty hwf] at hheld
  rw [presentFrame_of_frameStart _ hstart]
  exact hheld.trans (ite_congr rfl (fun hk => frameBytes_getD_payload ty hk) fun _ => rfl)

/-- A frame instruction is the first edge of its own buffer, of one of the three types (R61). -/
theorem exec_frame {i : Instr} {tail : FrameTail} (h : i = .data tail ∨ i = .cmd tail ∨ i = .ack tail) (s : State) :
    ∃ ty : Byte, exec i s = .next (beginFrame (frameBytes ty tail) s) := by
  obtain rfl | rfl | rfl := h
  · exact ⟨Config.typeData, rfl⟩
  · exact ⟨Config.typeCmd, rfl⟩
  · exact ⟨Config.typeAck, rfl⟩

/-- Settles O30: the run of a frame instruction ends at its frame's verdict, where PMEM holds the bytes captured. -/
theorem frameInstructionsWriteOnlyTheirPayloadCells : Obligations.FrameInstructionsWriteOnlyTheirPayloadCells := by
  intro s tail i hstart hwf hi
  obtain ⟨ty, hexec⟩ := exec_frame hi s
  exact ⟨beginFrame (frameBytes ty tail) s, presentFrame (frameBytes ty tail) s, hexec,
    run_beginFrame (frameBytes ty tail) s, presentFrame_pending _ s, pmData_presentFrame_frameBytes ty hstart hwf⟩

end Sys2Proof.Safety
end

section
/-! SUPPORT. The decoder and the encoder of both formats undo each other (R54 to R62), and what every buffer decodes
to or is rejected as. -/

namespace Sys2Proof

open Sys2Proof.Machine

/-! ## Command words (R55, R56) -/

/-- The two bits of `op` name one of the four port operations (R55). -/
theorem op_cases : ∀ op : BitVec 2, op = 0 ∨ op = 1 ∨ op = 2 ∨ op = 3 := by decide

/-- A word of the range of `op` is that `op` with the word's low eight bits as `din` (R54). -/
theorem eq_commandWord_of_div {w : CommandWord} {op : BitVec 2} (h : w.toNat / 256 = op.toNat) :
    w = commandWord op (BitVec.ofNat 8 w.toNat) := by
  apply BitVec.eq_of_toNat_eq
  rw [commandWord_toNat, ← h, BitVec.toNat_ofNat]
  omega

/-- The instruction of a word of the range of `op` (R55). -/
theorem decodeWord_of_div {w : CommandWord} {op : BitVec 2} (h : w.toNat / 256 = op.toNat) :
    decodeWord w =
      if op = 0 then .nop (BitVec.ofNat 8 w.toNat) else if op = 1 then .byte (BitVec.ofNat 8 w.toNat)
      else if op = 2 then .endOp (BitVec.ofNat 8 w.toNat) else .clr (BitVec.ofNat 8 w.toNat) :=
  (congrArg decodeWord (eq_commandWord_of_div h)).trans (decodeWord_commandWord op _)

/-- Settles O4: the words of each range are those of one `op`, and `op` names the operation. -/
theorem commandWordsDecodeByTheirOp : Obligations.CommandWordsDecodeByTheirOp := fun w =>
  ⟨fun h => decodeWord_of_div (w := w) (op := 0) (show _ = 0 by omega),
    fun h => decodeWord_of_div (w := w) (op := 1) (show _ = 1 by omega),
    fun h => decodeWord_of_div (w := w) (op := 2) (show _ = 2 by omega),
    fun h => decodeWord_of_div (w := w) (op := 3) (show _ = 3 by omega)⟩

/-- Encoding what a command word decodes to gives the word back. -/
theorem encode_decodeWord (w : CommandWord) : encode (decodeWord w) = .word w := by
  rw [← commandWord_fields w, decodeWord_commandWord]
  obtain h | h | h | h := op_cases (opField w) <;> rw [h] <;> rfl

/-- Port operations carry no condition (R55). -/
theorem wellFormed_decodeWord (w : CommandWord) : (decodeWord w).wellFormed = true := by
  obtain h | h | h | h := decodeWord_cases w <;> rw [h] <;> rfl

/-- What the edge of a command word does, by its `op`: only BYTE looks at `din` (R56). -/
theorem inputEffect_word (w : CommandWord) (s : State) :
    inputEffect (.edge false w) s =
      if opField w = 0 then s else if opField w = 1 then byteEdge (dinField w) s
      else if opField w = 2 then endEdge s else initRegs s := by
  simp only [inputEffect, sample_word, decodeWord]
  split_ifs <;> rfl

/-- Settles O16: the step is the effect of the word's edge, where `din` stands in the BYTE arm alone. -/
theorem ignoredDinChangesNothing : Obligations.IgnoredDinChangesNothing := by
  refine ⟨fun s w v rest hop hbyte => ?_, decodeWord_commandWord 1⟩
  have hbyte' : opField v ≠ 1 := hop ▸ hbyte
  rw [step_of_pending rfl, step_of_pending rfl]
  simp only [inputEffect_word, hop, if_neg hbyte']

/-! ## The operand of a frame type (R57) -/

/-- The bytes of a well-formed operand are read back as that operand. -/
theorem parseTail_tailBytes {tail : FrameTail} (h : tail.wellFormed = true) : parseTail (tailBytes tail) = tail := by
  cases tail with
  | noLength rest =>
    have hlen : rest.length < 2 := of_decide_eq_true h
    match rest, hlen with
    | [], _ => rfl
    | [_], _ => rfl
  | cutShort plen payload =>
    have hlen : payload.length ≤ plen.toNat := of_decide_eq_true h
    simp only [tailBytes, parseTail, bigEndian_highByte_lowByte, List.drop_eq_nil_of_le hlen]
  | complete plen payload csum trailing =>
    have hlen : payload.length = plen.toNat := of_decide_eq_true h
    simp only [tailBytes, parseTail, bigEndian_highByte_lowByte, List.drop_left' hlen, List.take_left' hlen]

/-- Every list of bytes is the operand of a well-formed shape: the three shapes leave nothing out. -/
theorem exists_tailBytes_eq : ∀ bs : List Byte, ∃ tail : FrameTail, tail.wellFormed = true ∧ tailBytes tail = bs
  | [] => ⟨.noLength [], rfl, rfl⟩
  | [b] => ⟨.noLength [b], rfl, rfl⟩
  | hi :: lo :: body => by
    match hdrop : body.drop (bigEndian hi lo).toNat with
    | [] =>
      refine ⟨.cutShort (bigEndian hi lo) body, decide_eq_true (List.drop_eq_nil_iff.mp hdrop), ?_⟩
      simp [tailBytes]
    | csum :: trailing =>
      have hlt : (bigEndian hi lo).toNat < body.length :=
        Nat.lt_of_not_le fun hle => List.cons_ne_nil csum trailing (hdrop.symm.trans (List.drop_eq_nil_of_le hle))
      refine ⟨.complete (bigEndian hi lo) (body.take (bigEndian hi lo).toNat) csum trailing,
        decide_eq_true (List.length_take_of_le hlt.le), ?_⟩
      simp [tailBytes, ← hdrop]

/-! ## Buffers (R61 to R64) -/

/-- The magic field is right exactly when the first two bytes are CA FE (R63). -/
theorem bigEndian_eq_magicConst_iff (m0 m1 : Byte) :
    bigEndian m0 m1 = Config.magicConst ↔ m0 = 0xCA ∧ m1 = 0xFE := by
  constructor
  · intro h
    exact ⟨(highByte_bigEndian m0 m1).symm.trans (congrArg highByte h),
      (lowByte_bigEndian m0 m1).symm.trans (congrArg lowByte h)⟩
  · rintro ⟨rfl, rfl⟩
    decide

/-- The types no row names are 00 and 04 to FF (R64). -/
theorem type_cases (t : Byte) : t = 0x01 ∨ t = 0x02 ∨ t = 0x03 ∨ (t = 0x00 ∨ 0x04 ≤ t.toNat) := by
  bv_omega

theorem decodeBuffer_short {data : List Byte} (h : data.length < 3) :
    decodeBuffer data = .error (.noTypeByte data.length) := by
  match data, h with
  | [], _ => rfl
  | [_], _ => rfl
  | [_, _], _ => rfl

theorem decodeBuffer_wrongMagic {m0 m1 : Byte} (t : Byte) (rest : List Byte) (h : m0 ≠ 0xCA ∨ m1 ≠ 0xFE) :
    decodeBuffer (m0 :: m1 :: t :: rest) = .error (.notMagic (bigEndian m0 m1)) := by
  have hmagic : bigEndian m0 m1 ≠ Config.magicConst := by
    rw [Ne, bigEndian_eq_magicConst_iff]
    tauto
  exact if_pos hmagic

theorem decodeBuffer_unknownType {t : Byte} (rest : List Byte) (h : t = 0x00 ∨ 0x04 ≤ t.toNat) :
    decodeBuffer (0xCA :: 0xFE :: t :: rest) = .error (.unknownType t) := by
  have hmagic : bigEndian 0xCA 0xFE = Config.magicConst := by decide
  have hne : t ≠ Config.typeData ∧ t ≠ Config.typeCmd ∧ t ≠ Config.typeAck := by
    refine ⟨?_, ?_, ?_⟩ <;> · rintro rfl; revert h; decide
  obtain ⟨hdata, hcmd, hack⟩ := hne
  simp only [decodeBuffer, hmagic, ne_eq, not_true, if_false, if_neg hdata, if_neg hcmd, if_neg hack]

theorem decodeBuffer_data (rest : List Byte) :
    decodeBuffer (0xCA :: 0xFE :: 0x01 :: rest) = .ok (.data (parseTail rest)) := rfl

theorem decodeBuffer_cmd (rest : List Byte) :
    decodeBuffer (0xCA :: 0xFE :: 0x02 :: rest) = .ok (.cmd (parseTail rest)) := rfl

theorem decodeBuffer_ack (rest : List Byte) :
    decodeBuffer (0xCA :: 0xFE :: 0x03 :: rest) = .ok (.ack (parseTail rest)) := rfl

/-- Every buffer is too short for a type byte, has a wrong magic, or is CA FE and a type byte. -/
theorem buffer_cases (data : List Byte) :
    data.length < 3 ∨
    (∃ m0 m1 t rest, data = m0 :: m1 :: t :: rest ∧ (m0 ≠ 0xCA ∨ m1 ≠ 0xFE)) ∨
    (∃ t rest, data = 0xCA :: 0xFE :: t :: rest) := by
  match data with
  | [] | [_] | [_, _] => exact .inl (by simp)
  | m0 :: m1 :: t :: rest =>
    by_cases h : m0 = 0xCA ∧ m1 = 0xFE
    · obtain ⟨rfl, rfl⟩ := h
      exact .inr (.inr ⟨t, rest, rfl⟩)
    · exact .inr (.inl ⟨m0, m1, t, rest, rfl, by tauto⟩)

/-- Settles O7: a buffer of the right magic goes by its type byte, and its operand is read back from its bytes. -/
theorem bufferDecodesExactlyWhenARowMatches : Obligations.BufferDecodesExactlyWhenARowMatches := by
  intro data i
  constructor
  · intro h
    obtain hshort | ⟨m0, m1, t, rest, rfl, hmagic⟩ | ⟨t, rest, rfl⟩ := buffer_cases data
    · exact nomatch (decodeBuffer_short hshort).symm.trans h
    · exact nomatch (decodeBuffer_wrongMagic t rest hmagic).symm.trans h
    · obtain ⟨tail, hwf, rfl⟩ := exists_tailBytes_eq rest
      refine ⟨tail, hwf, ?_⟩
      obtain rfl | rfl | rfl | hunknown := type_cases t
      · rw [decodeBuffer_data, parseTail_tailBytes hwf] at h
        exact .inl ⟨(Except.ok.inj h).symm, rfl⟩
      · rw [decodeBuffer_cmd, parseTail_tailBytes hwf] at h
        exact .inr (.inl ⟨(Except.ok.inj h).symm, rfl⟩)
      · rw [decodeBuffer_ack, parseTail_tailBytes hwf] at h
        exact .inr (.inr ⟨(Except.ok.inj h).symm, rfl⟩)
      · exact nomatch (decodeBuffer_unknownType (tailBytes tail) hunknown).symm.trans h
  · rintro ⟨tail, hwf, ⟨rfl, rfl⟩ | ⟨rfl, rfl⟩ | ⟨rfl, rfl⟩⟩
    · rw [decodeBuffer_data, parseTail_tailBytes hwf]
    · rw [decodeBuffer_cmd, parseTail_tailBytes hwf]
    · rw [decodeBuffer_ack, parseTail_tailBytes hwf]

/-- Settles O8: the rejection each kind of buffer meets, and that a buffer of the three rows meets none. -/
theorem otherBuffersAreRejectedByName : Obligations.OtherBuffersAreRejectedByName := by
  intro data r
  constructor
  · intro h
    obtain hshort | ⟨m0, m1, t, rest, rfl, hmagic⟩ | ⟨t, rest, rfl⟩ := buffer_cases data
    · rw [decodeBuffer_short hshort] at h
      exact .inl ⟨hshort, (Except.error.inj h).symm⟩
    · rw [decodeBuffer_wrongMagic t rest hmagic] at h
      exact .inr (.inl ⟨m0, m1, t, rest, rfl, hmagic, (Except.error.inj h).symm⟩)
    · obtain rfl | rfl | rfl | hunknown := type_cases t
      · exact nomatch (decodeBuffer_data rest).symm.trans h
      · exact nomatch (decodeBuffer_cmd rest).symm.trans h
      · exact nomatch (decodeBuffer_ack rest).symm.trans h
      · rw [decodeBuffer_unknownType rest hunknown] at h
        exact .inr (.inr ⟨t, rest, rfl, hunknown, (Except.error.inj h).symm⟩)
  · rintro (⟨hshort, rfl⟩ | ⟨m0, m1, t, rest, rfl, hmagic, rfl⟩ | ⟨t, rest, rfl, hunknown, rfl⟩)
    · exact decodeBuffer_short hshort
    · exact decodeBuffer_wrongMagic t rest hmagic
    · exact decodeBuffer_unknownType rest hunknown

/-! ## Both formats -/

/-- Settles O5: a command word gives back its two fields, and a buffer its type and operand (O7). -/
theorem decodeOfEncodeIsTheInstruction : Obligations.DecodeOfEncodeIsTheInstruction := by
  intro i hwf
  cases i with
  | nop din => exact congrArg Except.ok (decodeWord_commandWord 0 din)
  | byte din => exact congrArg Except.ok (decodeWord_commandWord 1 din)
  | endOp din => exact congrArg Except.ok (decodeWord_commandWord 2 din)
  | clr din => exact congrArg Except.ok (decodeWord_commandWord 3 din)
  | data tail => exact (bufferDecodesExactlyWhenARowMatches _ _).mpr ⟨tail, hwf, .inl ⟨rfl, rfl⟩⟩
  | cmd tail => exact (bufferDecodesExactlyWhenARowMatches _ _).mpr ⟨tail, hwf, .inr (.inl ⟨rfl, rfl⟩)⟩
  | ack tail => exact (bufferDecodesExactlyWhenARowMatches _ _).mpr ⟨tail, hwf, .inr (.inr ⟨rfl, rfl⟩)⟩

/-- Settles O6: a command word is made of its two fields, and a buffer of the row it matches (O7). -/
theorem encodeOfDecodeIsTheCode : Obligations.EncodeOfDecodeIsTheCode := by
  intro c i h
  cases c with
  | word w =>
    obtain rfl : decodeWord w = i := Except.ok.inj h
    exact ⟨wellFormed_decodeWord w, encode_decodeWord w⟩
  | buffer data =>
    obtain ⟨tail, hwf, hrow⟩ := (bufferDecodesExactlyWhenARowMatches data i).mp h
    obtain ⟨rfl, rfl⟩ | ⟨rfl, rfl⟩ | ⟨rfl, rfl⟩ := hrow
    all_goals exact ⟨hwf, rfl⟩

/-- Settles O3: seven closed terms, evaluated. -/
theorem writtenOutWordsDecode : Obligations.WrittenOutWordsDecode := by
  unfold Obligations.WrittenOutWordsDecode
  decide

end Sys2Proof
end

section
/-! SUPPORT. What the document's `decode` returns for a buffer that reaches its checksum byte (R86 to R88), and the
buffer PACKET builds (R71). -/

namespace Sys2Proof.Safety

open Sys2Proof.Machine

/-- Checks 1 to 5 pass when the header is right and the buffer reaches its checksum byte (R80 to R84); what is left is
checks 7 and 8 on that byte and the type (R86 to R88). -/
theorem refDecode_header {t : Byte} {plen : Half} {body : List Byte} (ht : t = 1 ∨ t = 2 ∨ t = 3)
    (hbody : plen.toNat < body.length) :
    refDecode (headerBytes t plen ++ body) =
      if xorFold (headerBytes t plen ++ body.take plen.toNat) ≠ body[plen.toNat] then
        .error (.checksumMismatch (xorFold (headerBytes t plen ++ body.take plen.toNat)) body[plen.toNat])
      else if t = 2 then
        if plen.toNat < 1 then .error .emptyCommandPayload
        else .packet ⟨0xCAFE, t, plen, body.take plen.toNat, body[plen.toNat], some body[0]⟩
      else .packet ⟨0xCAFE, t, plen, body.take plen.toNat, body[plen.toNat], none⟩ := by
  have hlength : (headerBytes t plen ++ body).length = body.length + 5 := rfl
  have hmagic : ∀ h0 h1,
      bigEndian ((headerBytes t plen ++ body)[0]'h0) ((headerBytes t plen ++ body)[1]'h1) = 0xCAFE :=
    fun _ _ => (by decide : bigEndian 0xCA 0xFE = 0xCAFE)
  have htype : ∀ h2, (headerBytes t plen ++ body)[2]'h2 = t := fun _ => rfl
  have hplen : ∀ h3 h4, bigEndian ((headerBytes t plen ++ body)[3]'h3) ((headerBytes t plen ++ body)[4]'h4) = plen :=
    fun _ _ => bigEndian_highByte_lowByte plen
  rw [refDecode, dif_neg (by omega)]
  simp only [hmagic, htype, hplen, hlength, Nat.add_comm 5]
  rw [if_neg (not_not_intro rfl), if_neg (not_not_intro ht), dif_neg (by omega)]
  rfl

/-- With the payload whole, the value is decided by the checksum byte and, for CMD, by whether there is a payload,
whatever the trailing bytes (R86 to R88, R91). -/
theorem refDecode_complete {t : Byte} {plen : Half} {payload : List Byte} (c : Byte) (trailing : List Byte)
    (ht : t = 1 ∨ t = 2 ∨ t = 3) (hlen : payload.length = plen.toNat) :
    refDecode (headerBytes t plen ++ payload ++ c :: trailing) =
      if xorFold (headerBytes t plen ++ payload) ≠ c then
        .error (.checksumMismatch (xorFold (headerBytes t plen ++ payload)) c)
      else if t = 2 ∧ payload = [] then .error .emptyCommandPayload
      else .packet ⟨0xCAFE, t, plen, payload, c, if t = 2 then payload.head? else none⟩ := by
  have hbody : plen.toNat < (payload ++ c :: trailing).length := by
    rw [List.length_append, List.length_cons]; omega
  have hchecksum : (payload ++ c :: trailing)[plen.toNat] = c := List.getElem_of_append rfl hlen
  rw [List.append_assoc, refDecode_header ht hbody, List.take_left' hlen, hchecksum]
  refine if_congr Iff.rfl rfl ?_
  by_cases hcmd : t = 2
  · cases payload with
    | nil => rw [if_pos hcmd, if_pos (hlen ▸ Nat.one_pos), if_pos ⟨hcmd, rfl⟩]
    | cons code more =>
      have hne : ¬ plen.toNat < 1 := by rw [← hlen, List.length_cons]; omega
      rw [if_pos hcmd, if_neg hne, if_neg (fun h => List.cons_ne_nil code more h.2), if_pos hcmd]
      rfl
  · rw [if_neg hcmd, if_neg (fun h => hcmd h.1), if_neg hcmd]

/-- The buffer PACKET builds is the header of the payload's length, the payload, and the fold of both (R71). -/
theorem packetBuffer_eq (t : Byte) {payload : List Byte} (h : payload.length ≤ 65535) :
    packetBuffer t payload =
      headerBytes t (BitVec.ofNat 16 payload.length) ++ payload ++
        [xorFold (headerBytes t (BitVec.ofNat 16 payload.length) ++ payload)] := by
  have hhigh : BitVec.ofNat 8 (payload.length / 256) = highByte (BitVec.ofNat 16 payload.length) := by
    apply BitVec.eq_of_toNat_eq
    rw [highByte_toNat, BitVec.toNat_ofNat, BitVec.toNat_ofNat]
    omega
  have hlow : BitVec.ofNat 8 payload.length = lowByte (BitVec.ofNat 16 payload.length) := by
    apply BitVec.eq_of_toNat_eq
    rw [lowByte_toNat, BitVec.toNat_ofNat, BitVec.toNat_ofNat]
    omega
  simp only [packetBuffer, headerBytes, hhigh, hlow]

/-- Settles O41: the checksum PACKET puts in is the fold of the bytes before it, and the length it puts in is the
payload's. -/
theorem packetRoundTrips : Obligations.PacketRoundTrips := by
  intro t payload ht hlen hcmd
  have hplen : payload.length = (BitVec.ofNat 16 payload.length).toNat :=
    (Nat.mod_eq_of_lt (Nat.lt_succ_of_le hlen)).symm
  have hnonempty : ¬ (t = 2 ∧ payload = []) := fun h => hcmd h.1 h.2
  rw [packetBuffer_eq t hlen, refDecode_complete _ [] ht hplen, if_neg (not_not_intro rfl), if_neg hnonempty]

end Sys2Proof.Safety
end

section
/-! SUPPORT. The laws of `xor_fold` (R79), and what the document's `decode` returns for every buffer: which check
decides for which shape (R80 to R89), and what follows for the values it returns (R75, R90, R91, R98, R100). -/

namespace Sys2Proof.Safety

open Sys2Proof.Machine

/-! ## The laws of `xor_fold` (R79) -/

/-- The accumulator a fold starts from is one more operand of its XOR. -/
theorem xorFoldFrom_eq_xor (acc : Byte) (bs : List Byte) : xorFoldFrom acc bs = acc ^^^ xorFold bs := by
  induction bs generalizing acc with
  | nil => exact (BitVec.xor_zero (x := acc)).symm
  | cons b rest ih =>
    rw [xorFold, xorFoldFrom, xorFoldFrom, ih, ih (0 ^^^ b)]
    simp [BitVec.xor_assoc]

theorem xorFold_cons (b : Byte) (bs : List Byte) : xorFold (b :: bs) = b ^^^ xorFold bs := by
  simp [xorFold, xorFoldFrom, xorFoldFrom_eq_xor b]

theorem xorFold_append (bs cs : List Byte) : xorFold (bs ++ cs) = xorFold bs ^^^ xorFold cs :=
  (xorFoldFrom_append 0 bs cs).trans (xorFoldFrom_eq_xor (xorFold bs) cs)

/-- The order of the bytes does not matter. -/
theorem xorFold_perm {bs cs : List Byte} (h : bs.Perm cs) : xorFold bs = xorFold cs := by
  induction h with
  | nil => rfl
  | cons b _ ih => rw [xorFold_cons, xorFold_cons, ih]
  | swap a b rest => simp only [xorFold_cons, ← BitVec.xor_assoc, BitVec.xor_comm a b]
  | trans _ _ ih₁ ih₂ => exact ih₁.trans ih₂

/-- Settles O38: XOR is associative and commutative with unit 0, so the fold does not see how the bytes are grouped or
ordered. -/
theorem xorFoldLaws : Obligations.XorFoldLaws := ⟨rfl, xorFold_concat, xorFold_append, fun _ _ h => xorFold_perm h⟩

/-! ## The fields of a buffer with the right magic (R57) -/

theorem headerBytes_append_length (t : Byte) (plen : Half) (body : List Byte) :
    (headerBytes t plen ++ body).length = 5 + body.length := Nat.add_comm body.length 5

theorem headerBytes_magic (t : Byte) (plen : Half) (body : List Byte) :
    ∀ h0 h1, bigEndian ((headerBytes t plen ++ body)[0]'h0) ((headerBytes t plen ++ body)[1]'h1) = 0xCAFE :=
  fun _ _ => (by decide : bigEndian 0xCA 0xFE = 0xCAFE)

theorem headerBytes_type (t : Byte) (plen : Half) (body : List Byte) :
    ∀ h2, (headerBytes t plen ++ body)[2]'h2 = t := fun _ => rfl

theorem headerBytes_plen (t : Byte) (plen : Half) (body : List Byte) :
    ∀ h3 h4, bigEndian ((headerBytes t plen ++ body)[3]'h3) ((headerBytes t plen ++ body)[4]'h4) = plen :=
  fun _ _ => bigEndian_highByte_lowByte plen

/-- Five bytes that begin with the magic are the header of their type and length field. -/
theorem eq_headerBytes_of_magic {b0 b1 : Byte} (h : bigEndian b0 b1 = 0xCAFE) (t b3 b4 : Byte) (body : List Byte) :
    b0 :: b1 :: t :: b3 :: b4 :: body = headerBytes t (bigEndian b3 b4) ++ body := by
  obtain ⟨rfl, rfl⟩ := (bigEndian_eq_magicConst_iff b0 b1).mp h
  rw [headerBytes, highByte_bigEndian, lowByte_bigEndian]
  rfl

/-! ## The checks of `decode` that need no checksum byte (R80 to R84) -/

/-- Check 1 (R80). -/
theorem refDecode_short {data : List Byte} (h : data.length < 5) :
    refDecode data = .error (.insufficientHeader data.length) := dif_pos h

/-- Check 2 (R81). -/
theorem refDecode_invalidMagic {b0 b1 : Byte} (b2 b3 b4 : Byte) (body : List Byte) (h : bigEndian b0 b1 ≠ 0xCAFE) :
    refDecode (b0 :: b1 :: b2 :: b3 :: b4 :: body) = .error (.invalidMagic (bigEndian b0 b1)) := by
  rw [refDecode, dif_neg (by simp)]
  exact if_pos h

/-- Check 3 (R82). -/
theorem refDecode_unknownType {t : Byte} (plen : Half) (body : List Byte) (h : ¬ (t = 1 ∨ t = 2 ∨ t = 3)) :
    refDecode (headerBytes t plen ++ body) = .error (.unknownType t) := by
  rw [refDecode, dif_neg (by rw [headerBytes_append_length]; omega)]
  simp only [headerBytes_magic, headerBytes_type]
  rw [if_neg (not_not_intro rfl), if_pos h]

/-- Check 5 (R84): the buffer ends at or before the checksum position. -/
theorem refDecode_insufficientBody {t : Byte} {plen : Half} {body : List Byte} (ht : t = 1 ∨ t = 2 ∨ t = 3)
    (hbody : body.length ≤ plen.toNat) :
    refDecode (headerBytes t plen ++ body) = .error (.insufficientBody (plen.toNat + 6) (5 + body.length)) := by
  have hlength := headerBytes_append_length t plen body
  rw [refDecode, dif_neg (by omega)]
  simp only [headerBytes_magic, headerBytes_type, headerBytes_plen, hlength]
  rw [if_neg (not_not_intro rfl), if_neg (not_not_intro ht), dif_pos (by omega),
    show 5 + plen.toNat + 1 = plen.toNat + 6 by omega]

/-- Which check decides, by the shape of the buffer: the hypotheses of the lemmas above and of `refDecode_complete`
leave no buffer out. -/
theorem decode_shapes (data : List Byte) :
    data.length < 5 ∨
    (∃ b0 b1 b2 b3 b4 body, data = b0 :: b1 :: b2 :: b3 :: b4 :: body ∧ bigEndian b0 b1 ≠ 0xCAFE) ∨
    (∃ t plen body, data = headerBytes t plen ++ body ∧ ¬ (t = 1 ∨ t = 2 ∨ t = 3)) ∨
    (∃ t plen body, data = headerBytes t plen ++ body ∧ (t = 1 ∨ t = 2 ∨ t = 3) ∧ body.length ≤ plen.toNat) ∨
    (∃ t plen payload c trailing, data = headerBytes t plen ++ payload ++ c :: trailing ∧
      (t = 1 ∨ t = 2 ∨ t = 3) ∧ payload.length = plen.toNat) := by
  match data with
  | [] | [_] | [_, _] | [_, _, _] | [_, _, _, _] => exact .inl (by simp)
  | b0 :: b1 :: t :: b3 :: b4 :: body =>
    refine .inr ?_
    by_cases hmagic : bigEndian b0 b1 = 0xCAFE
    case neg => exact .inl ⟨b0, b1, t, b3, b4, body, rfl, hmagic⟩
    refine .inr ?_
    rw [eq_headerBytes_of_magic hmagic]
    by_cases ht : t = 1 ∨ t = 2 ∨ t = 3
    case neg => exact .inl ⟨t, _, body, rfl, ht⟩
    refine .inr ?_
    rcases Nat.lt_or_ge (bigEndian b3 b4).toNat body.length with hlt | hle
    · refine .inr ⟨t, _, body.take (bigEndian b3 b4).toNat, body[(bigEndian b3 b4).toNat],
        body.drop ((bigEndian b3 b4).toNat + 1), ?_, ht, List.length_take_of_le hlt.le⟩
      rw [List.append_assoc, List.getElem_cons_drop, List.take_append_drop]
    · exact .inl ⟨t, _, body, rfl, ht, hle⟩

/-- Settles O39: each clause is one check, on the fields as numbers. -/
theorem earlyChecksReportInOrder : Obligations.EarlyChecksReportInOrder := by
  refine ⟨fun data => refDecode_short, fun b0 b1 b2 b3 b4 body => ?_⟩
  have hmagic : bigEndian b0 b1 = 0xCAFE ↔ b0.toNat * 256 + b1.toNat = 0xCAFE := by
    rw [← BitVec.toNat_inj, bigEndian_toNat]; rfl
  refine ⟨fun h => refDecode_invalidMagic b2 b3 b4 body (mt hmagic.mp h), fun h ht => ?_, fun h ht hshort => ?_⟩
  · rw [eq_headerBytes_of_magic (hmagic.mpr h), refDecode_unknownType _ body ht]
  · have hexpected : 5 + (b3.toNat * 256 + b4.toNat) + 1 = (bigEndian b3 b4).toNat + 6 := by
      rw [bigEndian_toNat]; omega
    rw [eq_headerBytes_of_magic (hmagic.mpr h), hexpected, refDecode_insufficientBody ht (by omega)]

/-! ## Checks 7 and 8 and success (R86 to R88) -/

/-- Settles O40: `refDecode_complete` read branch by branch, and check 5 for the header alone. -/
theorem lateChecksReportInOrder : Obligations.LateChecksReportInOrder := by
  refine ⟨fun t plen payload c trailing hlen ht => ?_,
    refDecode_insufficientBody (t := 2) (plen := 0) (body := []) (.inr (.inl rfl)) le_rfl⟩
  rw [refDecode_complete c trailing ht hlen]
  exact ⟨fun hne => if_pos hne, fun heq hcmd hnil => (if_neg (not_not_intro heq)).trans (if_pos ⟨hcmd, hnil⟩),
    fun heq hcmd => (if_neg (not_not_intro heq)).trans (if_neg fun h => hcmd h.1 h.2)⟩

/-- A returned Packet comes from a buffer with the whole frame, the right checksum byte and, for CMD, a payload, and has
that frame's fields (R86 to R88, R90). -/
theorem refDecode_eq_packet {data : List Byte} {p : Packet} (h : refDecode data = .packet p) :
    ∃ t plen payload trailing, data = headerBytes t plen ++ payload ++ p.checksum :: trailing ∧
      (t = 1 ∨ t = 2 ∨ t = 3) ∧ payload.length = plen.toNat ∧ xorFold (headerBytes t plen ++ payload) = p.checksum ∧
      ¬ (t = 2 ∧ payload = []) ∧
      p = ⟨0xCAFE, t, plen, payload, p.checksum, if t = 2 then payload.head? else none⟩ := by
  obtain hshort | ⟨b0, b1, b2, b3, b4, body, rfl, hmagic⟩ | ⟨t, plen, body, rfl, ht⟩ | ⟨t, plen, body, rfl, ht, hbody⟩ |
    ⟨t, plen, payload, c, trailing, rfl, ht, hlen⟩ := decode_shapes data
  · exact nomatch (refDecode_short hshort).symm.trans h
  · exact nomatch (refDecode_invalidMagic b2 b3 b4 body hmagic).symm.trans h
  · exact nomatch (refDecode_unknownType plen body ht).symm.trans h
  · exact nomatch (refDecode_insufficientBody ht hbody).symm.trans h
  · rw [refDecode_complete c trailing ht hlen] at h
    split at h
    case isTrue => exact nomatch h
    case isFalse hfold =>
      split at h
      case isTrue => exact nomatch h
      case isFalse hempty =>
        obtain rfl := DecodeResult.packet.inj h
        exact ⟨t, plen, payload, trailing, rfl, ht, hlen, not_not.mp hfold, hempty, rfl⟩

/-- Settles O42: the byte set is the one after the payload, and the fold does not see it. -/
theorem anotherChecksumByteIsAMismatch : Obligations.AnotherChecksumByteIsAMismatch := by
  intro data p c h hne
  obtain ⟨t, plen, payload, trailing, rfl, ht, hlen, hfold, -, hp⟩ := refDecode_eq_packet h
  have hposition : 5 + p.payloadLength.toNat = (headerBytes t plen ++ payload).length := by
    rw [hp, ← hlen, List.length_append]; rfl
  rw [hposition, List.set_append_right _ _ le_rfl, Nat.sub_self, List.set_cons_zero,
    refDecode_complete c trailing ht hlen, if_pos (hfold.trans_ne hne.symm), hfold]

/-- Settles O43: the three kinds of value come from buffers with the whole frame, and there the trailing bytes do not
stand in the value. -/
theorem trailingBytesChangeNothing : Obligations.TrailingBytesChangeNothing := by
  rintro data extra r rfl hkind
  obtain hshort | ⟨b0, b1, b2, b3, b4, body, rfl, hmagic⟩ | ⟨t, plen, body, rfl, ht⟩ | ⟨t, plen, body, rfl, ht, hbody⟩ |
    ⟨t, plen, payload, c, trailing, rfl, ht, hlen⟩ := decode_shapes data
  · simp [refDecode_short hshort] at hkind
  · simp [refDecode_invalidMagic b2 b3 b4 body hmagic] at hkind
  · simp [refDecode_unknownType plen body ht] at hkind
  · simp [refDecode_insufficientBody ht hbody] at hkind
  · rw [List.append_assoc, List.cons_append, refDecode_complete c _ ht hlen, refDecode_complete c _ ht hlen]

/-- Settles O44: the items of R90 are read off the frame the Packet comes from. -/
theorem returnedPacketsAreValid : Obligations.ReturnedPacketsAreValid := by
  intro data p h
  obtain ⟨t, plen, payload, trailing, rfl, ht, hlen, hfold, hcmd, hp⟩ := refDecode_eq_packet h
  have hframe : (headerBytes t plen ++ payload).length = 5 + plen.toNat := by
    rw [← hlen, List.length_append]; rfl
  have hdrop : (headerBytes t plen ++ payload ++ p.checksum :: trailing).drop 5 =
      payload ++ p.checksum :: trailing := by
    rw [List.append_assoc]; rfl
  obtain ⟨hmagic, htype, hplen, hpayload, -, hcode⟩ := Packet.mk.inj hp
  rw [hmagic, htype, hplen, hpayload, hcode, hdrop, ← hframe, List.take_left, List.take_left' hlen]
  refine ⟨rfl, ht, ?_, hfold.symm, rfl, hlen, fun h2 => ⟨fun hnil => hcmd ⟨h2, hnil⟩, if_pos h2⟩, fun h2 => if_neg h2⟩
  simp

/-- Settles O45: each shape of a buffer gives its one kind of error, with fields bounded by that shape's lengths. -/
theorem returnedErrorsAreInRange : Obligations.ReturnedErrorsAreInRange := by
  intro data e h
  obtain hshort | ⟨b0, b1, b2, b3, b4, body, rfl, hmagic⟩ | ⟨t, plen, body, rfl, ht⟩ | ⟨t, plen, body, rfl, ht, hbody⟩ |
    ⟨t, plen, payload, c, trailing, rfl, ht, hlen⟩ := decode_shapes data
  · rw [refDecode_short hshort] at h
    obtain rfl := DecodeResult.error.inj h
    exact ⟨rfl, Nat.le_of_lt_succ hshort⟩
  · rw [refDecode_invalidMagic b2 b3 b4 body hmagic] at h
    obtain rfl := DecodeResult.error.inj h
    exact hmagic
  · rw [refDecode_unknownType plen body ht] at h
    obtain rfl := DecodeResult.error.inj h
    have := type_cases t
    tauto
  · rw [refDecode_insufficientBody ht hbody] at h
    obtain rfl := DecodeResult.error.inj h
    have hplen := plen.isLt
    have hlength := headerBytes_append_length t plen body
    refine ⟨?_, ?_, ?_, ?_, ?_, hlength.symm⟩ <;> omega
  · rw [refDecode_complete c trailing ht hlen] at h
    split_ifs at h with hfold hempty
    · obtain rfl := DecodeResult.error.inj h
      exact hfold
    · obtain rfl := DecodeResult.error.inj h
      obtain ⟨rfl, rfl⟩ := hempty
      obtain rfl : plen = 0 := BitVec.eq_of_toNat_eq hlen.symm
      obtain rfl : c = 0x36 := (not_not.mp hfold).symm.trans (by decide)
      rfl

end Sys2Proof.Safety
end

section
/-! SUPPORT. The hardware's verdict on a whole buffer is the document's `decode` of it (R113), and with it the verdict
of each frame type, by the shape of its operand (R95 to R97). -/

namespace Sys2Proof.Safety

open Sys2Proof.Machine

/-! ## What a result says of the registers (R108) -/

/-- After END the result is that of the first failing check, else the Packet on show (R105, R108). -/
theorem result_finalize (s : State) :
    result (finalize s) = some (
      if s.cnt.toNat < 5 then .error (.insufficientHeader s.cnt.toNat)
      else if s.magic ≠ 0xCAFE then .error (.invalidMagic s.magic)
      else if ¬ (s.ptype = 1 ∨ s.ptype = 2 ∨ s.ptype = 3) then .error (.unknownType s.ptype)
      else if s.cnt.toNat < s.plen.toNat + 6 then .error (.insufficientBody (s.plen.toNat + 6) s.cnt.toNat)
      else if s.xacc ≠ s.csb then .error (.checksumMismatch s.xacc s.csb)
      else if s.ptype = 2 ∧ s.plen = 0 then .error .emptyCommandPayload
      else .packet (shownPacket s)) := by
  have hexp : (expTotal (finalize s)).toNat = s.plen.toNat + 6 := expTotal_toNat (finalize s)
  have hcode := statusCode_firstFailure s
  rw [← finalize_status] at hcode
  split_ifs at hcode ⊢
  case neg => exact result_of_ok rfl hcode
  all_goals rw [result, if_neg (by simp), hcode, hexp]; rfl

/-- The result is a Packet exactly when the verdict is OK, and then it is the one on show (R108). -/
theorem result_eq_packet_iff {s : State} {p : Packet} :
    result s = some (.packet p) ↔ s.done = true ∧ s.status = 0 ∧ p = shownPacket s := by
  refine ⟨fun h => ?_, fun ⟨hdone, hstatus, hp⟩ => hp ▸ result_of_ok hdone hstatus⟩
  rw [result] at h
  split at h
  case isTrue => exact nomatch h
  case isFalse hdone =>
    split at h
    case isTrue hstatus =>
      exact ⟨eq_true_of_ne_false hdone, hstatus, (DecodeResult.packet.inj (Option.some.inj h)).symm⟩
    case isFalse => split_ifs at h <;> exact nomatch h

/-- With a Packet shown, `cmd_valid` says that its type is CMD (R28). -/
theorem cmdValid_of_packet {s : State} {p : Packet} (h : result s = some (.packet p)) :
    cmdValid s = (p.packetType == 2) := by
  obtain ⟨hdone, hstatus, rfl⟩ := result_eq_packet_iff.mp h
  rw [cmdValid, hdone, hstatus]
  rfl

/-- With an error reported, `cmd_valid` is 0 (R28). -/
theorem cmdValid_of_error {s : State} {e : DecodeError} (h : result s = some (.error e)) : cmdValid s = false := by
  by_contra hvalid
  obtain ⟨hdone, hstatus, -⟩ := (cmdValid_iff s).mp (eq_true_of_ne_false hvalid)
  exact nomatch (result_of_ok hdone hstatus).symm.trans h

/-! ## The bytes of a frame held -/

/-- The length field of a whole frame, whatever trails it (R83). -/
theorem declaredLength_frame (ty : Byte) (plen : Half) (payload : List Byte) (c : Byte) (trailing : List Byte) :
    declaredLength (headerBytes ty plen ++ payload ++ c :: trailing) = plen.toNat :=
  declaredLength_header 0xCA 0xFE ty plen (payload ++ c :: trailing)

/-- The registers after the header and a body (R104). -/
theorem HoldsBytes.header {ty : Byte} {plen : Half} {body : List Byte} {m : List Host.Cell} {t : State}
    (h : HoldsBytes (headerBytes ty plen ++ body) m t) :
    t.cnt.toNat = min (5 + body.length) 131071 ∧ t.magic = 0xCAFE ∧ t.ptype = ty ∧ t.plen = plen :=
  ⟨by rw [h.cnt, headerBytes_append_length], h.magic.trans (by decide : bigEndian 0xCA 0xFE = 0xCAFE), h.ptype,
    h.plen.trans (bigEndian_highByte_lowByte plen)⟩

/-- The registers after a whole frame and its trailing bytes: the fold, the checksum byte and the command code (R21 to
R23). -/
theorem HoldsBytes.complete {ty : Byte} {plen : Half} {payload : List Byte} {c : Byte} {trailing : List Byte}
    {m : List Host.Cell} {t : State} (h : HoldsBytes (headerBytes ty plen ++ payload ++ c :: trailing) m t)
    (hlen : payload.length = plen.toNat) :
    t.xacc = xorFold (headerBytes ty plen ++ payload) ∧ t.csb = c ∧ (payload ≠ [] → payload.head? = some t.cmdc) := by
  have hframe : (headerBytes ty plen ++ payload).length = 5 + plen.toNat := by rw [headerBytes_append_length, hlen]
  have hdecl := declaredLength_frame ty plen payload c trailing
  refine ⟨?_, ?_, fun hne => ?_⟩
  · rw [h.xacc, hdecl, List.take_left' hframe]
  · rw [h.csb, hdecl, ← hframe, List.getD_append_right _ _ _ _ le_rfl, Nat.sub_self]; rfl
  · obtain ⟨code, more, rfl⟩ := List.exists_cons_of_ne_nil hne
    rw [h.cmdc, hdecl, ← hlen, if_pos (by simp)]; rfl

/-- The payload on show after a whole frame is the frame's (R34, R46). -/
theorem HoldsBytes.payloadView_eq {ty : Byte} {plen : Half} {payload : List Byte} {c : Byte} {trailing : List Byte}
    {s t : State} (h : HoldsBytes (headerBytes ty plen ++ payload ++ c :: trailing) s.pmem t)
    (hlen : payload.length = plen.toNat) : payloadView t = payload := by
  have hdecl := declaredLength_frame ty plen payload c trailing
  have hview : (payloadView t).length = payload.length := by
    rw [payloadView, List.length_map, List.length_range, h.plen_toNat, hdecl, hlen]
  refine List.ext_getElem hview fun k _ hk => ?_
  have hcell : (BitVec.ofNat 16 k).toNat = k := toNat_cellAddress (by have := plen.isLt; omega)
  have hbody : k < (payload ++ c :: trailing).length := by rw [List.length_append]; omega
  calc (payloadView t)[k] = Machine.pmData t (BitVec.ofNat 16 k) := by simp [payloadView]
    _ = (headerBytes ty plen ++ payload ++ c :: trailing).getD (5 + k) 0 := by
      rw [h.pmData, hcell, hdecl, List.append_assoc, headerBytes_append_length, if_pos (by omega)]
    _ = (payload ++ c :: trailing).getD k 0 := by rw [Nat.add_comm]; rfl
    _ = payload[k] := by rw [List.getD_append _ _ _ _ hk, List.getD_eq_getElem _ _ hk]

/-! ## The verdict is `decode` of the buffer (R113) -/

/-- END after the bytes of a buffer gives what the document's function gives for it. -/
theorem HoldsBytes.result_eq_refDecode {data : List Byte} {s t : State} (h : HoldsBytes data s.pmem t) :
    result (finalize t) = some (refDecode data) := by
  rw [result_finalize]
  obtain hshort | ⟨b0, b1, b2, b3, b4, body, rfl, hmagic⟩ | ⟨ty, plen, body, rfl, hty⟩ |
    ⟨ty, plen, body, rfl, hty, hbody⟩ | ⟨ty, plen, payload, c, trailing, rfl, hty, hlen⟩ := decode_shapes data
  · have hcnt : t.cnt.toNat = data.length := by rw [h.cnt]; omega
    rw [refDecode_short hshort, hcnt, if_pos hshort]
  · have hmagicReg : t.magic = bigEndian b0 b1 := h.magic
    have hheader : ¬ t.cnt.toNat < 5 := by simp only [h.cnt, List.length_cons]; omega
    rw [refDecode_invalidMagic b2 b3 b4 body hmagic, if_neg hheader, hmagicReg, if_pos hmagic]
  · obtain ⟨hcnt, hmagic, hptype, -⟩ := h.header
    rw [refDecode_unknownType plen body hty, if_neg (by omega), hmagic, if_neg (not_not_intro rfl), hptype, if_pos hty]
  · obtain ⟨hcnt, hmagic, hptype, hplen⟩ := h.header
    have hlt := plen.isLt
    have hexact : t.cnt.toNat = 5 + body.length := by omega
    rw [refDecode_insufficientBody hty hbody, hexact, if_neg (by omega), hmagic, if_neg (not_not_intro rfl), hptype,
      if_neg (not_not_intro hty), hplen, if_pos (by omega)]
  · obtain ⟨hxacc, hcsb, hcmdc⟩ := h.complete hlen
    have hview := h.payloadView_eq hlen
    rw [List.append_assoc] at h
    obtain ⟨hcnt, hmagic, hptype, hplen⟩ := h.header
    have hlt := plen.isLt
    have hwhole : plen.toNat + 6 ≤ t.cnt.toNat := by
      rw [List.length_append, List.length_cons] at hcnt; omega
    have hempty : plen = 0 ↔ payload = [] := by
      rw [← List.length_eq_zero_iff, hlen, ← BitVec.toNat_inj]; rfl
    rw [refDecode_complete c trailing hty hlen, shownPacket, hmagic, hptype, hplen, hxacc, hcsb, hview,
      if_neg (by omega), if_neg (not_not_intro rfl), if_neg (not_not_intro hty), if_neg (by omega)]
    refine congrArg some (if_congr Iff.rfl rfl ?_)
    refine ite_congr (propext (and_congr_right' hempty)) (fun _ => rfl) fun hcmd => ?_
    by_cases h2 : ty = 2
    · rw [if_pos h2, if_pos h2, hcmdc fun hnil => hcmd ⟨h2, hnil⟩]
    · rw [if_neg h2, if_neg h2]

/-- A buffer presented where a frame begins ends at the verdict `decode` gives for it (R113). -/
theorem result_presentFrame (data : List Byte) {s : State} (hstart : FrameStart s) :
    result (presentFrame data s) = some (refDecode data) := by
  rw [presentFrame_of_frameStart data hstart]
  exact (holdsBytes_presentBytes data s).result_eq_refDecode

/-! ## The verdict of a frame instruction (R95 to R97) -/

section
variable {i : Instr} {ty : Byte} {s : State}

/-- An instruction that takes the first edge of a buffer goes on to the verdict `decode` gives for that buffer. -/
theorem exec_run_result {data : List Byte} {n : Nat} {r : DecodeResult} (hi : exec i s = .next (beginFrame data s))
    (hstart : FrameStart s) (hn : data.length = n) (hr : refDecode data = r) :
    ∃ t u : State, exec i s = .next t ∧ Host.Core.run Sys2Proof.core n t = .next u ∧ result u = some r :=
  ⟨beginFrame data s, presentFrame data s, hi, hn ▸ run_beginFrame data s, hr ▸ result_presentFrame data hstart⟩

/-- A frame type with no whole length field (R80). -/
theorem noLength_verdict {rest : List Byte} (hi : exec i s = .next (beginFrame (frameBytes ty (.noLength rest)) s))
    (hstart : FrameStart s) (h : rest.length < 2) :
    ∃ t u : State, exec i s = .next t ∧ Host.Core.run Sys2Proof.core (rest.length + 3) t = .next u ∧
      result u = some (.error (.insufficientHeader (3 + rest.length))) := by
  have hlength : (frameBytes ty (.noLength rest)).length = 3 + rest.length := Nat.add_comm rest.length 3
  refine exec_run_result hi hstart rfl ?_
  rw [refDecode_short (by omega), hlength]

/-- A frame type that ends at or before its checksum position (R84). -/
theorem cutShort_verdict {plen : Half} {payload : List Byte} (hty : ty = 1 ∨ ty = 2 ∨ ty = 3)
    (hi : exec i s = .next (beginFrame (frameBytes ty (.cutShort plen payload)) s)) (hstart : FrameStart s)
    (h : payload.length ≤ plen.toNat) :
    ∃ t u : State, exec i s = .next t ∧ Host.Core.run Sys2Proof.core (payload.length + 5) t = .next u ∧
      result u = some (.error (.insufficientBody (plen.toNat + 6) (5 + payload.length))) :=
  exec_run_result hi hstart rfl (refDecode_insufficientBody hty h)

/-- A frame type with its whole frame (R86 to R88). -/
theorem complete_verdict {plen : Half} {payload : List Byte} {csum : Byte} {trailing : List Byte}
    (hty : ty = 1 ∨ ty = 2 ∨ ty = 3)
    (hi : exec i s = .next (beginFrame (frameBytes ty (.complete plen payload csum trailing)) s))
    (hstart : FrameStart s) (h : payload.length = plen.toNat) :
    ∃ t u : State, exec i s = .next t ∧
      Host.Core.run Sys2Proof.core (payload.length + trailing.length + 6) t = .next u ∧ u.done = true ∧
      result u = some (
        if xorFold (headerBytes ty plen ++ payload) ≠ csum then
          .error (.checksumMismatch (xorFold (headerBytes ty plen ++ payload)) csum)
        else if ty = 2 ∧ payload = [] then .error .emptyCommandPayload
        else .packet ⟨0xCAFE, ty, plen, payload, csum, if ty = 2 then payload.head? else none⟩) := by
  have hdata : frameBytes ty (.complete plen payload csum trailing) =
      headerBytes ty plen ++ payload ++ csum :: trailing := by rw [List.append_assoc]; rfl
  have hlength : (frameBytes ty (.complete plen payload csum trailing)).length =
      payload.length + trailing.length + 6 := by
    simp only [frameBytes_length, tailBytes, List.length_cons, List.length_append]
    omega
  obtain ⟨t, u, hexec, hrun, hresult⟩ := exec_run_result hi hstart hlength
    (hdata ▸ refDecode_complete csum trailing hty h)
  have hdone : u.done = true := by
    by_contra hd
    exact nomatch (result_of_not_done (eq_false_of_ne_true hd)).symm.trans hresult
  exact ⟨t, u, hexec, hrun, hdone, hresult⟩

/-- A frame type that carries no command, with its whole frame: the verdict and `cmd_valid` (R28, R95, R97). -/
theorem complete_verdict_noCommand {plen : Half} {payload : List Byte} {csum : Byte} {trailing : List Byte}
    (hty : ty = 1 ∨ ty = 3)
    (hi : exec i s = .next (beginFrame (frameBytes ty (.complete plen payload csum trailing)) s))
    (hstart : FrameStart s) (h : payload.length = plen.toNat) :
    ∃ t u : State, exec i s = .next t ∧
      Host.Core.run Sys2Proof.core (payload.length + trailing.length + 6) t = .next u ∧ u.done = true ∧
      cmdValid u = false ∧
      if xorFold (headerBytes ty plen ++ payload) ≠ csum then
        result u = some (.error (.checksumMismatch (xorFold (headerBytes ty plen ++ payload)) csum))
      else u.status = 0 ∧ result u = some (.packet ⟨0xCAFE, ty, plen, payload, csum, none⟩) := by
  have hne : ty ≠ 2 := by rintro rfl; revert hty; decide
  obtain ⟨t, u, hexec, hrun, hdone, hresult⟩ := complete_verdict (hty.imp_right .inr) hi hstart h
  refine ⟨t, u, hexec, hrun, hdone, ?_⟩
  rw [if_neg (fun hcmd : ty = 2 ∧ payload = [] => hne hcmd.1), if_neg hne] at hresult
  by_cases hfold : xorFold (headerBytes ty plen ++ payload) = csum
  · rw [if_neg (not_not_intro hfold)] at hresult ⊢
    obtain ⟨-, hstatus, -⟩ := result_eq_packet_iff.mp hresult
    exact ⟨(cmdValid_of_packet hresult).trans (beq_false_of_ne hne), hstatus, hresult⟩
  · rw [if_pos hfold] at hresult ⊢
    exact ⟨cmdValid_of_error hresult, hresult⟩

end

/-- Settles O27: the verdicts `decode` gives for the three shapes of a buffer of type 1. -/
theorem dataFrameGivesItsVerdict : Obligations.DataFrameGivesItsVerdict := fun _ hstart =>
  ⟨fun _ h => noLength_verdict rfl hstart h, fun _ _ h => cutShort_verdict (.inl rfl) rfl hstart h,
    fun _ _ _ _ h => complete_verdict_noCommand (.inl rfl) rfl hstart h⟩

/-- Settles O29: the verdicts `decode` gives for the three shapes of a buffer of type 3. -/
theorem ackFrameGivesItsVerdict : Obligations.AckFrameGivesItsVerdict := fun _ hstart =>
  ⟨fun _ h => noLength_verdict rfl hstart h, fun _ _ h => cutShort_verdict (.inr (.inr rfl)) rfl hstart h,
    fun _ _ _ _ h => complete_verdict_noCommand (.inr rfl) rfl hstart h⟩

/-- Settles O28: the verdicts `decode` gives for the three shapes of a buffer of type 2, and the Packet that then stands
in the result says what `cmd_valid` and CMDC are. -/
theorem cmdFrameGivesItsVerdict : Obligations.CmdFrameGivesItsVerdict := by
  intro s hstart
  refine ⟨fun _ h => noLength_verdict rfl hstart h, fun _ _ h => cutShort_verdict (.inr (.inl rfl)) rfl hstart h,
    fun plen payload csum trailing h => ?_⟩
  obtain ⟨t, u, hexec, hrun, hdone, hresult⟩ :=
    complete_verdict (i := .cmd (.complete plen payload csum trailing)) (ty := 0x02) (.inr (.inl rfl)) rfl hstart h
  refine ⟨t, u, hexec, hrun, hdone, ?_⟩
  by_cases hfold : xorFold (headerBytes 0x02 plen ++ payload) = csum
  case neg =>
    rw [if_pos hfold] at hresult ⊢
    exact ⟨cmdValid_of_error hresult, hresult⟩
  rw [if_neg (not_not_intro hfold)] at hresult ⊢
  cases payload with
  | nil => exact ⟨cmdValid_of_error hresult, hresult⟩
  | cons code more =>
    obtain ⟨-, hstatus, hshown⟩ := result_eq_packet_iff.mp hresult
    obtain ⟨-, htype, -, -, -, hcode⟩ := Packet.mk.inj hshown
    rw [← htype] at hcode
    exact ⟨hstatus, cmdValid_of_packet hresult, (Option.some.inj hcode).symm, hresult⟩

end Sys2Proof.Safety
end

section
/-! SUPPORT. NOP edges change nothing (R114), so the words of a buffer with NOPs among them reach the verdict `decode`
gives for it (R113), and so do buffers presented one after another (R146). -/

namespace Sys2Proof.Safety

open Sys2Proof.Machine

/-! ## NOP edges (R102, R114) -/

/-- A NOP edge changes nothing (R102). -/
theorem inputEffect_of_isNop {x : HostInput} (h : isNop x = true) (s : State) : inputEffect x s = s := by
  obtain ⟨rst, w⟩ := x
  obtain ⟨rfl, hop⟩ : rst = false ∧ opField w = 0 := by simpa [isNop] using h
  rw [inputEffect_word, if_pos hop]

/-- Without its NOPs a list of inputs has the same effect (R114). -/
theorem inputsEffect_filter_not_isNop (xs : List HostInput) (s : State) :
    inputsEffect (xs.filter (fun x => !isNop x)) s = inputsEffect xs s := by
  induction xs generalizing s with
  | nil => rfl
  | cons x xs ih =>
    cases hx : isNop x
    case false => rw [List.filter_cons_of_pos (by simp [hx])]; exact ih _
    case true => rw [List.filter_cons_of_neg (by simp [hx]), ih, inputsEffect, inputEffect_of_isNop hx]

/-- Without its NOP words a list of command words has the same effect. -/
theorem inputsEffect_filter_words (ws : List CommandWord) (s : State) :
    inputsEffect ((ws.filter (fun w => opField w != 0)).map (HostInput.edge false)) s =
      inputsEffect (ws.map (HostInput.edge false)) s := by
  rw [← inputsEffect_filter_not_isNop (ws.map (HostInput.edge false)), List.filter_map]
  rfl

/-- Settles O34: a run is the effects of its inputs in order, and those of NOPs are none. -/
theorem nopsAreTransparent : Obligations.NopsAreTransparent := by
  intro s xs rest
  rw [run_inputs, run_inputs, inputsEffect_filter_not_isNop]

/-! ## Equivalence with `decode` (R113) -/

/-- BYTE for every byte of a buffer and then END, with any `din`, is the buffer presented whole (R56, R70). -/
theorem inputsEffect_bufferWords (data : List Byte) (d : Byte) (s : State) :
    inputsEffect ((data.map (commandWord 1) ++ [commandWord 2 d]).map (HostInput.edge false)) s =
      presentFrame data s := by
  rw [List.map_append, inputsEffect_append, inputsEffect_byteWords]
  exact inputEffect_endWord d _

/-- Settles O33: without the NOPs the words are those of the buffer, and `decode` gives the verdict of a buffer
presented where a frame begins. -/
theorem hardwareComputesDecode : Obligations.HardwareComputesDecode := by
  intro s data d ws hstart hws
  have hreach := reaches_inputsEffect ws s
  rw [← inputsEffect_filter_words, hws, inputsEffect_bufferWords] at hreach
  exact ⟨presentFrame data s, hreach, presentFrame_done data s, result_presentFrame data hstart⟩

/-! ## Buffers one after another (R146) -/

/-- One more buffer after the others is presented whole in the state they lead to (R70). -/
theorem inputsEffect_buffers_concat (buffers : List (List Byte)) (data : List Byte) (s : State) :
    inputsEffect (((buffers ++ [data]).flatMap frameWords).map (HostInput.edge false)) s =
      presentFrame data (inputsEffect ((buffers.flatMap frameWords).map (HostInput.edge false)) s) := by
  rw [List.flatMap_append, List.flatMap_singleton, List.map_append, inputsEffect_append, ← frameEdges,
    inputsEffect_frameEdges]

/-- After any number of whole buffers a frame begins at the next operation: the last END has left a verdict. -/
theorem frameStart_inputsEffect_buffers (buffers : List (List Byte)) {s : State} (hstart : FrameStart s) :
    FrameStart (inputsEffect ((buffers.flatMap frameWords).map (HostInput.edge false)) s) := by
  obtain rfl | ⟨before, last, rfl⟩ := buffers.eq_nil_or_concat'
  · exact hstart
  · rw [inputsEffect_buffers_concat]
    exact .inl (presentFrame_done last _)

/-- Settles O37: the buffers before the k-th leave a state where a frame begins, and the k-th gives its own result. -/
theorem buffersInSequenceGiveTheirResults : Obligations.BuffersInSequenceGiveTheirResults := by
  intro s buffers hstart k hk
  rw [List.take_succ_eq_append_getElem hk]
  refine ⟨_, reaches_inputsEffect _ s, ?_⟩
  rw [inputsEffect_buffers_concat]
  exact ⟨presentFrame_done _ _, result_presentFrame buffers[k] (frameStart_inputsEffect_buffers _ hstart)⟩

end Sys2Proof.Safety
end

section
/-! SUPPORT. Each port operation's own effect, register by register and cell by cell (R102 to R107), and that every run
goes on (R116). -/

namespace Sys2Proof.Machine

open Sys2Proof.Safety

/-! ## NOP (R102) -/

/-- The command words of NOP are 0x000 to 0x0FF (R55). -/
theorem opField_eq_zero_iff (w : CommandWord) : opField w = 0 ↔ w.toNat ≤ 0x0FF := by
  rw [← BitVec.toNat_inj, opField_toNat]
  change w.toNat / 256 = 0 ↔ _
  omega

/-- Settles O10: the step is the effect of an edge whose `op` is 0, which is no change. -/
theorem nopChangesNothing : Obligations.NopChangesNothing := by
  refine ⟨fun din s => exec_eq_effect (.nop din) s, fun s w rest hp hw => ?_⟩
  rw [step_of_pending hp, inputEffect_word, if_pos ((opField_eq_zero_iff w).mpr hw)]

/-! ## BYTE (R104) -/

/-- The read port after a byte (R44, R45): the byte in the cell it was stored in, every other cell as before. -/
theorem pmData_absorb (b : Byte) (s : State) (a : Half) :
    pmData (absorb b s) a =
      if 5 ≤ s.cnt.toNat ∧ s.cnt.toNat < 5 + s.plen.toNat ∧ a.toNat = s.cnt.toNat - 5 then b else pmData s a := by
  have hcell := lookupCell_captureByte b s a.toNat
  simp only [← absorb_pmem, and_assoc] at hcell
  split_ifs at hcell ⊢
  · exact pmData_of_lookupCell hcell
  · exact pmData_congr hcell

/-- Settles O11: with no verdict on show BYTE is `absorb`, whose writes are known register by register. -/
theorem byteIsCapturedByItsOffset : Obligations.ByteIsCapturedByItsOffset := by
  intro b s hd
  refine ⟨absorb b s, ?_, absorb_done b s, captureByte_status b s, absorb_cnt_toNat b s, captureByte_magic b s,
    captureByte_ptype b s, captureByte_plen b s, captureByte_xacc b s, captureByte_csb b s, captureByte_cmdc b s,
    pmData_absorb b s, captureByte_pending b s⟩
  rw [exec_eq_effect, effect, byteEdge_of_not_done b hd]

/-! ## END (R105) -/

/-- Settles O13: with no verdict on show END is `finalize`, which records the code of the first failing check. -/
theorem endRecordsTheFirstFailingCheck : Obligations.EndRecordsTheFirstFailingCheck := by
  intro d s hd
  rw [exec_eq_effect, effect, endEdge, openFrame_of_not_done hd, finalize, statusCode_firstFailure]
  rfl

/-! ## CLR (R107) -/

/-- `init` gives the registers their reset values and keeps the rest (R25, R148). -/
theorem initRegs_eq_cleared (s : State) : initRegs s = cleared s.pmem s.pending := rfl

theorem busy_initRegs (s : State) : busy (initRegs s) = false := rfl

/-- Settles O15: CLR and a reset edge are both `init`. -/
theorem clrDiscardsTheFrame : Obligations.ClrDiscardsTheFrame := by
  refine fun d s => ⟨initRegs s, exec_eq_effect (.clr d) s, initRegs_eq_cleared s, busy_initRegs s,
    cmdValid_of_not_done (initRegs_done s), fun w => ?_⟩
  exact step_of_pending (x := .edge true w) (rest := s.pending) rfl

/-! ## Every run goes on (R116) -/

/-- Every step gives a next state. -/
theorem exists_step_eq_next (s : State) : ∃ t : State, step s = .next t := by
  cases hp : s.pending with
  | nil => exact ⟨s, step_of_empty hp⟩
  | cons x rest => exact ⟨_, step_of_pending hp⟩

/-- Settles O20, by induction on the number of steps. -/
theorem everyRunGoesOn : Obligations.EveryRunGoesOn := by
  intro n
  induction n with
  | zero => exact fun s => ⟨s, rfl⟩
  | succ n ih =>
    intro s
    obtain ⟨t, hstep⟩ := exists_step_eq_next s
    obtain ⟨u, hrun⟩ := ih t
    exact ⟨u, (run_succ n hstep).trans hrun⟩

end Sys2Proof.Machine
end

section
/-! SUPPORT. What the registers and the ports show while a frame comes in (R112, R118), and that nothing before a frame
shows in its verdict (R115). -/

namespace Sys2Proof.Safety

open Sys2Proof.Machine

/-! ## The bytes of a frame in hand -/

/-- Presenting BYTE for every byte of a list reaches the state their edges come to. -/
theorem reaches_byteWords (bs : List Byte) (s : State) : Reaches (bs.map (commandWord 1)) s (presentBytes bs s) := by
  rw [← inputsEffect_byteWords]; exact reaches_inputsEffect _ s

/-- Where a frame begins, its bytes are held once there is one, or at once at the reset values (R26, R104). -/
theorem holdsBytes_of_frameStart {s : State} {bs : List Byte} (hstart : FrameStart s)
    (h : bs ≠ [] ∨ initRegs s = s) : HoldsBytes bs s.pmem (presentBytes bs s) := by
  have hinit : presentBytes bs s = presentBytes bs (initRegs s) := by
    obtain hne | hreset := h
    · obtain ⟨b, rest, rfl⟩ := List.exists_cons_of_ne_nil hne
      rw [presentBytes, presentBytes, byteEdge, byteEdge, openFrame_of_frameStart hstart, openFrame_initRegs]
    · rw [hreset]
  rw [hinit]
  exact holdsBytes_presentBytes bs s

/-! ## The ports during a frame (R118) -/

section
variable {bs : List Byte} {m : List Host.Cell} {t : State}

theorem HoldsBytes.cnt_eq (h : HoldsBytes bs m t) : t.cnt = BitVec.ofNat 17 (min bs.length 131071) := by
  rw [← h.cnt, BitVec.ofNat_toNat, BitVec.setWidth_eq]

theorem HoldsBytes.expTotal_eq (h : HoldsBytes bs m t) : expTotal t = BitVec.ofNat 17 (declaredLength bs + 6) := by
  rw [← h.plen_toNat, ← expTotal_toNat, BitVec.ofNat_toNat, BitVec.setWidth_eq]

/-- The block is busy once the frame has a byte (R28). -/
theorem HoldsBytes.busy_eq (h : HoldsBytes bs m t) : busy t = decide (1 ≤ bs.length) := by
  rw [Bool.eq_iff_iff, busy_iff, and_iff_right h.done, decide_eq_true_iff, h.cnt]
  omega

end

/-- Settles O32: each port is a function of the registers that hold the bytes so far. -/
theorem portsDuringAFrame : Obligations.PortsDuringAFrame := by
  intro s bs hstart hbs
  have h := holdsBytes_of_frameStart hstart hbs
  refine ⟨presentBytes bs s, reaches_byteWords bs s, fun a => ?_⟩
  rw [outPorts, OutPorts.mk.injEq]
  exact ⟨h.done, h.status, h.busy_eq, h.cnt_eq, h.magic, h.ptype, h.plen, h.expTotal_eq, h.xacc, h.csb, h.cmdc,
    cmdValid_of_not_done h.done, h.pmData a⟩

/-! ## Frames are independent (R115) -/

/-- The registers depend on the frame's bytes alone, whatever memory it began over. -/
theorem HoldsBytes.sameRegisters {bs : List Byte} {m n : List Host.Cell} {t u : State} (ht : HoldsBytes bs m t)
    (hu : HoldsBytes bs n u) : SameRegisters t u :=
  ⟨ht.done.trans hu.done.symm, ht.status.trans hu.status.symm, ht.cnt_eq.trans hu.cnt_eq.symm,
    ht.magic.trans hu.magic.symm, ht.ptype.trans hu.ptype.symm, ht.plen.trans hu.plen.symm,
    ht.xacc.trans hu.xacc.symm, ht.csb.trans hu.csb.symm, ht.cmdc.trans hu.cmdc.symm⟩

/-- END reads and writes registers only (R105). -/
theorem SameRegisters.finalize {t u : State} (h : SameRegisters t u) :
    SameRegisters (finalize t) (finalize u) := by
  obtain ⟨-, -, hcnt, hmagic, hptype, hplen, hxacc, hcsb, hcmdc⟩ := h
  refine ⟨rfl, ?_, hcnt, hmagic, hptype, hplen, hxacc, hcsb, hcmdc⟩
  rw [finalize_status, finalize_status, statusCode_firstFailure, statusCode_firstFailure, hcnt, hmagic, hptype, hplen,
    hxacc, hcsb]

/-- The read port after a whole buffer: its payload in the cells it reaches, every other cell as before (R45, R46). -/
theorem pmData_presentFrame (data : List Byte) {s : State} (hstart : FrameStart s) (a : Half) :
    pmData (presentFrame data s) a =
      if a.toNat < min (declaredLength data) (data.length - 5) then data.getD (5 + a.toNat) 0 else pmData s a := by
  rw [presentFrame_of_frameStart data hstart]
  exact (holdsBytes_presentBytes data s).pmData a

/-- The registers after a whole buffer are the same from wherever a frame begins (R115). -/
theorem sameRegisters_presentFrame (data : List Byte) {s₁ s₂ : State} (hstart₁ : FrameStart s₁)
    (hstart₂ : FrameStart s₂) : SameRegisters (presentFrame data s₁) (presentFrame data s₂) := by
  rw [presentFrame_of_frameStart data hstart₁, presentFrame_of_frameStart data hstart₂]
  exact ((holdsBytes_presentBytes data s₁).sameRegisters (holdsBytes_presentBytes data s₂)).finalize

/-- PLEN after a whole buffer is the length it declares (R20, R83). -/
theorem plen_presentFrame (data : List Byte) {s : State} (hstart : FrameStart s) :
    (presentFrame data s).plen.toNat = declaredLength data := by
  rw [presentFrame_of_frameStart data hstart]
  exact (holdsBytes_presentBytes data s).plen_toNat

/-- Settles O35: both states end holding the same bytes, and differ only in the cells the buffer does not write. -/
theorem framesAreIndependent : Obligations.FramesAreIndependent := by
  intro s₁ s₂ data hstart₁ hstart₂
  refine ⟨presentFrame data s₁, presentFrame data s₂, reaches_frameWords data s₁, reaches_frameWords data s₂,
    sameRegisters_presentFrame data hstart₁ hstart₂,
    (result_presentFrame data hstart₁).trans (result_presentFrame data hstart₂).symm, fun a => ?_⟩
  have hwritten : a.toNat < declaredLength data ∧ a.toNat + 5 < data.length ↔
      a.toNat < min (declaredLength data) (data.length - 5) := by omega
  rw [pmData_presentFrame data hstart₁, pmData_presentFrame data hstart₂, plen_presentFrame data hstart₁]
  simp only [hwritten]
  split_ifs
  · rfl
  · exact ⟨rfl, rfl⟩

/-! ## The checksum generator (R112) -/

/-- Up to the checksum offset every byte that has come is folded (R21). -/
theorem HoldsBytes.xacc_of_le {bs : List Byte} {m : List Host.Cell} {t : State} (h : HoldsBytes bs m t)
    (hlen : bs.length ≤ 5 + declaredLength bs) : t.xacc = xorFold bs := by
  rw [h.xacc, List.take_of_length_le hlen]

/-- A part of a buffer that has the header declares the buffer's length (R83). -/
theorem declaredLength_take {bs : List Byte} {k : Nat} (h : 5 ≤ k) :
    declaredLength (bs.take k) = declaredLength bs := by
  simp [declaredLength, show 3 < k by omega, show 4 < k by omega]

/-- A header and its whole payload, with the fold of both as the checksum byte, is accepted (R86 to R88, R112). -/
theorem status_presentFrame_generated {s : State} {b0 b1 b2 b3 b4 : Byte} {payload : List Byte} (hstart : FrameStart s)
    (hlen : payload.length = (bigEndian b3 b4).toNat) (hmagic : bigEndian b0 b1 = 0xCAFE)
    (hty : b2 = 1 ∨ b2 = 2 ∨ b2 = 3) (hcmd : b2 = 2 → payload ≠ []) :
    (presentFrame ([b0, b1, b2, b3, b4] ++ payload ++ [xorFold ([b0, b1, b2, b3, b4] ++ payload)]) s).status = 0 := by
  have hheader : [b0, b1, b2, b3, b4] = headerBytes b2 (bigEndian b3 b4) := eq_headerBytes_of_magic hmagic b2 b3 b4 []
  have hresult := result_presentFrame
    (headerBytes b2 (bigEndian b3 b4) ++ payload ++ [xorFold (headerBytes b2 (bigEndian b3 b4) ++ payload)]) hstart
  rw [refDecode_complete _ [] hty hlen, if_neg (not_not_intro rfl), if_neg fun h => hcmd h.1 h.2] at hresult
  obtain ⟨-, hstatus, -⟩ := result_eq_packet_iff.mp hresult
  rw [hheader]
  exact hstatus

/-- Settles O36: XACC is the fold of the bytes held before the checksum offset, which the header bytes 3 and 4 place at
the end of the payload. -/
theorem xaccGeneratesTheChecksum : Obligations.XaccGeneratesTheChecksum := by
  intro s b0 b1 b2 b3 b4 payload hstart hlen
  have hdecl : ∀ body, declaredLength ([b0, b1, b2, b3, b4] ++ body) = payload.length := fun _ => hlen.symm
  have hbytes : ([b0, b1, b2, b3, b4] ++ payload).length = 5 + payload.length := Nat.add_comm payload.length 5
  refine ⟨fun k hk hle => ⟨_, reaches_byteWords _ s, ?_⟩, fun more => ⟨_, reaches_byteWords _ s, ?_⟩,
    fun hmagic hty hcmd => ⟨_, reaches_frameWords _ s, presentFrame_done _ s,
      status_presentFrame_generated hstart hlen hmagic hty hcmd⟩⟩
  · have hne : ([b0, b1, b2, b3, b4] ++ payload).take k ≠ [] := by
      rw [← List.length_pos_iff, List.length_take]; omega
    refine (holdsBytes_of_frameStart hstart (.inl hne)).xacc_of_le ?_
    rw [List.length_take]
    rcases Nat.lt_or_ge k 5 with hhead | hbody
    · omega
    · rw [declaredLength_take hbody, hdecl]; omega
  · have hxacc := (holdsBytes_of_frameStart (bs := [b0, b1, b2, b3, b4] ++ payload ++ more) hstart
      (.inl (List.cons_ne_nil _ _))).xacc
    rw [hxacc, List.append_assoc, hdecl, ← List.append_assoc, List.take_left' hbytes]

end Sys2Proof.Safety
end

section
/-! SUPPORT. Reset edges, as many as the host likes, and the word that follows them (R147). -/

namespace Sys2Proof.Safety

open Sys2Proof.Machine

/-- Any number of reset edges after the first add nothing to it: `init` of the reset values is `init` (R147). -/
theorem inputsEffect_resetEdges {ws : List CommandWord} (hne : ws ≠ []) (s : State) :
    inputsEffect (ws.map (HostInput.edge true)) s = initRegs s := by
  induction ws generalizing s with
  | nil => exact absurd rfl hne
  | cons w ws ih =>
    change inputsEffect (ws.map (HostInput.edge true)) (initRegs s) = initRegs s
    obtain rfl | hws := eq_or_ne ws []
    · rfl
    · rw [ih hws, initRegs_initRegs]

/-- A run over the inputs a state presents next is their effects in order, with the later ones still to come. -/
theorem run_of_pending {s : State} {xs rest : List HostInput} (h : s.pending = xs ++ rest) :
    Host.Core.run Sys2Proof.core xs.length s = .next (withPending rest (inputsEffect xs s)) := by
  calc Host.Core.run Sys2Proof.core xs.length s
      = Host.Core.run Sys2Proof.core xs.length (withPending (xs ++ rest) s) := by rw [withPending, ← h]
    _ = .next (withPending rest (inputsEffect xs s)) := run_inputs xs rest s

/-- Settles O17: the reset edges come to one `init`, and the word's edge is its instruction's effect on that state. -/
theorem resetEdgesClearAndTheNextWordRuns : Obligations.ResetEdgesClearAndTheNextWordRuns := by
  intro s ws w rest hne hp
  constructor
  · have hrun := run_of_pending hp
    rw [List.length_map, inputsEffect_resetEdges hne] at hrun
    exact hrun
  · have hword : s.pending = ws.map (HostInput.edge true) ++ [.edge false w] ++ rest := by simp [hp]
    have hrun := run_of_pending hword
    rw [List.length_append, List.length_map, List.length_singleton, inputsEffect_append,
      inputsEffect_resetEdges hne, inputsEffect, inputsEffect, ← inputEffect_withPending] at hrun
    exact hrun.trans (exec_eq_effect (decodeWord w) (cleared s.pmem rest)).symm

end Sys2Proof.Safety
end

section
/-! SUPPORT. A step runs the presented instruction (R53, R70, R101), a frame is the run of its edges, one a step (R11,
R111), what a step leaves in DONE (R15), and the ports after reset (R148). -/

namespace Sys2Proof.Safety

open Sys2Proof.Machine

/-! ## A frame is the run of its edges (R11, R53, R70) -/

/-- A buffer of one of the three frame types is the first edge of its own bytes (R95 to R97). -/
theorem exec_of_decodeBuffer {data : List Byte} {i : Instr} (h : decodeBuffer data = .ok i) (s : State) :
    exec i s = .next (beginFrame data s) := by
  obtain ⟨tail, -, hrow⟩ := (bufferDecodesExactlyWhenARowMatches data i).mp h
  obtain ⟨rfl, rfl⟩ | ⟨rfl, rfl⟩ | ⟨rfl, rfl⟩ := hrow
  · exact exec_eq_effect (.data tail) s
  · exact exec_eq_effect (.cmd tail) s
  · exact exec_eq_effect (.ack tail) s

/-- The edges of a buffer that is cut in two: BYTE for each byte of the first part, then the edges of the second. -/
theorem frameEdges_append (bs cs : List Byte) :
    frameEdges (bs ++ cs) = (bs.map (commandWord 1)).map (HostInput.edge false) ++ frameEdges cs := by
  simp [frameEdges, frameWords]

/-- The first edge of a frame is the step its edges make when they are presented next (R70). -/
theorem step_present_frameEdges (data : List Byte) (s : State) :
    step (present (frameEdges data) s) = .next (beginFrame data s) := step_frameEdges data s.pending s

/-- As many steps as there are bytes before a cut absorb those bytes and leave the edges after the cut to come. -/
theorem run_present_frameEdges_append (bs cs : List Byte) (s : State) :
    Host.Core.run Sys2Proof.core bs.length (present (frameEdges (bs ++ cs)) s) =
      .next (withPending (frameEdges cs ++ s.pending) (presentBytes bs s)) := by
  have hrun := run_inputs ((bs.map (commandWord 1)).map (HostInput.edge false)) (frameEdges cs ++ s.pending) s
  rw [List.length_map, List.length_map, ← List.append_assoc, ← frameEdges_append, inputsEffect_byteWords] at hrun
  exact hrun

/-- Once a frame has begun, k more steps absorb k more of its bytes and leave the other edges to come. -/
theorem run_beginFrame_of_lt {data : List Byte} {k : Nat} (hk : k < data.length) (s : State) :
    Host.Core.run Sys2Proof.core k (beginFrame data s) =
      .next (withPending (frameEdges (data.drop (k + 1)) ++ s.pending) (presentBytes (data.take (k + 1)) s)) := by
  have hrun := run_present_frameEdges_append (data.take (k + 1)) (data.drop (k + 1)) s
  rwa [List.take_append_drop, List.length_take_of_le hk, run_succ k (step_present_frameEdges data s)] at hrun

/-- Settles O26: `beginFrame` is the step of the presented edges, and a run over them absorbs a byte a step. -/
theorem frameIsTheRunOfItsEdges : Obligations.FrameIsTheRunOfItsEdges :=
  ⟨fun s data _ hi => ⟨beginFrame data s, exec_of_decodeBuffer hi s, fun _ hk => run_beginFrame_of_lt hk s,
      run_beginFrame data s⟩,
    fun s data => (run_succ data.length (step_present_frameEdges data s)).trans (run_beginFrame data s)⟩

/-! ## A step runs what is presented (R55, R101) -/

/-- Settles O1: a command word is one edge, and the edges of a buffer begin with the step of its frame type. -/
theorem stepRunsTheDecodedInstruction : Obligations.StepRunsTheDecodedInstruction := by
  intro s c i rest hp hi
  cases c with
  | word w =>
    obtain rfl : decodeWord w = i := Except.ok.inj hi
    exact (step_of_pending hp).trans (exec_eq_effect (decodeWord w) { s with pending := rest }).symm
  | buffer data =>
    calc step s
        = step { s with pending := frameEdges data ++ rest } := congrArg (fun p => step { s with pending := p }) hp
      _ = .next (beginFrame data { s with pending := rest }) := step_frameEdges data rest s
      _ = exec i { s with pending := rest } := (exec_of_decodeBuffer hi _).symm

/-- The edges of a table word are those of the code its bits stand for. -/
theorem tableInputs_of_tableCode {nbits w : Nat} {c : Code} (h : tableCode nbits w = some c) :
    tableInputs nbits w = inputsOf c := by
  unfold tableCode at h
  split_ifs at h with hframe hword
  · obtain rfl := Option.some.inj h
    exact if_pos hframe.1
  · obtain rfl := Option.some.inj h
    exact if_neg (by omega)

/-- An instruction read from a table row is the decoding of the code the row's bits stand for. -/
theorem exists_code_of_decodeTableWord {nbits w : Nat} {i : Instr} (h : decodeTableWord nbits w = some i) :
    ∃ c, tableCode nbits w = some c ∧ decode c = .ok i := by
  unfold decodeTableWord at h
  split at h
  case h_1 c hc =>
    split at h
    case h_1 j hj => exact ⟨c, hc, Option.some.inj h ▸ hj⟩
    case h_2 => cases h
  case h_2 => cases h

/-- Settles O9: a table word presents the edges of its code, and the step runs what that code decodes to (O1). -/
theorem tableWordRunsAtTheNextStep : Obligations.TableWordRunsAtTheNextStep := by
  intro s nbits w i h
  obtain ⟨c, hc, hi⟩ := exists_code_of_decodeTableWord h
  refine stepRunsTheDecodedInstruction (s.withFetchWord nbits w) c i s.pending ?_ hi
  rw [← tableInputs_of_tableCode hc]
  rfl

/-! ## No edge, no change (R101) -/

/-- Settles O2, by induction on the number of steps. -/
theorem nothingPresentedChangesNothing : Obligations.NothingPresentedChangesNothing := by
  intro n s hp
  induction n with
  | zero => rfl
  | succ n ih => exact (run_succ n (step_of_empty hp)).trans ih

/-! ## DONE after a step (R15) -/

/-- DONE after the edge of a command word, by the range the word lies in (R15, R55). -/
theorem inputEffect_word_done (w : CommandWord) (s : State) :
    (inputEffect (.edge false w) s).done =
      if w.toNat ≤ 0x0FF then s.done else if w.toNat ≤ 0x1FF then false
      else if w.toNat ≤ 0x2FF then true else false := by
  obtain ⟨hnop, hbyte, hend, hclr⟩ := commandWordsDecodeByTheirOp w
  have hw := w.isLt
  rw [inputEffect, sample_word]
  split_ifs with h0 h1 h2
  · rw [hnop h0]; rfl
  · rw [hbyte ⟨by omega, h1⟩]; rfl
  · rw [hend ⟨by omega, h2⟩]; rfl
  · rw [hclr ⟨by omega, by omega⟩]; rfl

/-- Settles O21: a step keeps the state, or is a reset edge or the edge of a command word. -/
theorem doneTellsTheLastOperation : Obligations.DoneTellsTheLastOperation := by
  intro s t h
  obtain ⟨hp, rfl⟩ | ⟨⟨rst, w⟩, rest, hp, rfl⟩ := step_cases h
  · simp only [hp]
  · cases rst with
    | true => simp only [hp]; rfl
    | false => simp only [hp]; exact inputEffect_word_done w { s with pending := rest }

/-! ## After reset (R148) -/

/-- The ports at the reset values show zeros, `exp_total` 6, and PMEM on `pm_data` (R30, R148). -/
theorem outPorts_initRegs (s : State) (a : Half) :
    outPorts (initRegs s) a = ⟨false, 0, false, 0, 0, 0, 0, 6, 0, 0, 0, false, pmData s a⟩ := rfl

/-- Settles O18: a reset edge is `init`, and the reset state is what `init` makes of itself. -/
theorem portsAfterReset : Obligations.PortsAfterReset :=
  ⟨fun s _ rest a hp => ⟨cleared s.pmem rest, step_of_pending hp, rfl, outPorts_initRegs s a⟩, rfl,
    outPorts_initRegs State.reset⟩

end Sys2Proof.Safety
end
